-- ==== Sys2Proof/Word.lean ====
section
/-! DEFINITION. The data types of the machine's cells and digits.

Registers, the instruction pointer and every computed value are natural numbers (00_scope R10, 10_state R22):
they need no type of their own. Only a program cell and an output digit have a width, 3 bits each. -/

namespace Sys2Proof

/-- A program cell: 3 bits, a value in 0..7 (00_scope R5, 20_memory R41). -/
abbrev ProgCell := BitVec 3

/-- An output digit: 3 bits, a value in 0..7 (10_state R31). -/
abbrev Digit := BitVec 3

end Sys2Proof
end

