-- ==== Sys2Proof/Syntax.lean ====
section
/-! DEFINITION. The closed instruction type (30_encoding R66, R70), with its operand forms (R62 to R65). -/

namespace Sys2Proof

/-- The three general registers; they have no other names, aliases or banks (10_state R21). -/
inductive Reg
  | A
  | B
  | C
  deriving DecidableEq, Repr

/-- A combo operand (30_encoding R64): codes 0 to 3 are the value itself, codes 4 to 6 a register,
code 7 is reserved. The decoder builds the reserved form; it is rejected when the operand is resolved (R70). -/
inductive Combo
  | lit (n : Fin 4)
  | reg (r : Reg)
  | reserved
  deriving DecidableEq, Repr

/-- The operand modes of 30_encoding R62. -/
inductive OperandMode
  | literal
  | combo
  | ignored
  deriving DecidableEq, Repr

/-- The eight opcodes of 30_encoding R66, by name. -/
inductive Opcode
  | divA
  | xorLiteral
  | modulo
  | jumpIfNonzero
  | xorRegisters
  | output
  | divB
  | divC
  deriving DecidableEq, Repr

/-- One constructor per row of spec/opcode_table.json. A literal operand is the cell's raw value (R63);
XorRegisters keeps its ignored cell, so that every pair of cells is some instruction (R65). -/
inductive Instr
  | divA (k : Combo)
  | xorLiteral (k : ProgCell)
  | modulo (k : Combo)
  | jumpIfNonzero (k : ProgCell)
  | xorRegisters (k : ProgCell)
  | output (k : Combo)
  | divB (k : Combo)
  | divC (k : Combo)
  deriving DecidableEq, Repr

end Sys2Proof
end

