-- ==== Sys2Proof/WellFormed.lean ====
section
/-! DEFINITION. Which instructions are valid (30_encoding R67): all but a combo form with the reserved operand.

The types already bound every other field: a literal is 3 bits, a combo value is below 4. -/

namespace Sys2Proof

/-- A combo operand other than the reserved code 7 (30_encoding R64). -/
def Combo.valid (k : Combo) : Bool :=
  match k with
  | .lit _ => true
  | .reg _ => true
  | .reserved => false

/-- The 59 valid pairs of 30_encoding R67: a combo-mode instruction needs a valid combo operand;
literal and ignored operands are valid whatever they hold, 7 included. -/
def Instr.wellFormed (i : Instr) : Bool :=
  match i with
  | .divA k => k.valid
  | .xorLiteral _ => true
  | .modulo k => k.valid
  | .jumpIfNonzero _ => true
  | .xorRegisters _ => true
  | .output k => k.valid
  | .divB k => k.valid
  | .divC k => k.valid

end Sys2Proof
end

