-- ==== Sys2Proof/Decode.lean ====
section
/-! DEFINITION. The decoder and the encoder (30_encoding R60 to R70).

The machine's own decoder is `decodePair`, total on two 3-bit cells (R70). `decode` is the same decoder on raw
natural numbers, as a host hands them over: it rejects by name what a 3-bit cell cannot hold. -/

namespace Sys2Proof

/-- The opcode map of 30_encoding R66. -/
def decodeOpcode (op : ProgCell) : Opcode :=
  match op with
  | 0#3 => .divA
  | 1#3 => .xorLiteral
  | 2#3 => .modulo
  | 3#3 => .jumpIfNonzero
  | 4#3 => .xorRegisters
  | 5#3 => .output
  | 6#3 => .divB
  | 7#3 => .divC

/-- The operand mode of each opcode (30_encoding R62). -/
def Opcode.mode (o : Opcode) : OperandMode :=
  match o with
  | .divA => .combo
  | .xorLiteral => .literal
  | .modulo => .combo
  | .jumpIfNonzero => .literal
  | .xorRegisters => .ignored
  | .output => .combo
  | .divB => .combo
  | .divC => .combo

/-- The combo operand of a raw operand cell (30_encoding R64). -/
def Combo.ofCode (k : ProgCell) : Combo :=
  match k with
  | 0#3 => .lit 0
  | 1#3 => .lit 1
  | 2#3 => .lit 2
  | 3#3 => .lit 3
  | 4#3 => .reg .A
  | 5#3 => .reg .B
  | 6#3 => .reg .C
  | 7#3 => .reserved

/-- The instruction of a pair of cells (30_encoding R61, R70; 40_execute_cycle R85): total, the opcode alone
selects the constructor, and a reserved combo operand is kept for operand resolution to reject. -/
def decodePair (op k : ProgCell) : Instr :=
  match decodeOpcode op with
  | .divA => .divA (Combo.ofCode k)
  | .xorLiteral => .xorLiteral k
  | .modulo => .modulo (Combo.ofCode k)
  | .jumpIfNonzero => .jumpIfNonzero k
  | .xorRegisters => .xorRegisters k
  | .output => .output (Combo.ofCode k)
  | .divB => .divB (Combo.ofCode k)
  | .divC => .divC (Combo.ofCode k)

/-- Why raw cells are no instruction. -/
inductive DecodeReject
  /-- Fewer than two cells are left: no operand cell (40_execute_cycle R84). -/
  | truncated
  /-- The opcode is above 7 (30_encoding R68): no 3-bit cell holds it. -/
  | unknownOpcode (op : Nat)
  /-- The operand is above 7, which no 3-bit cell holds (00_scope R5). -/
  | operandOutOfRange (k : Nat)
  deriving DecidableEq, Repr

/-- Decode the first instruction of a list of raw cells, with the cells that follow it. Total; the opcode is
judged before the operand cell is looked for, as in 40_execute_cycle R88. -/
def decode (cells : List Nat) : Except DecodeReject (Instr × List Nat) :=
  match cells with
  | [] => .error .truncated
  | op :: rest =>
    if 7 < op then .error (.unknownOpcode op)
    else
      match rest with
      | [] => .error .truncated
      | k :: rest' =>
        if 7 < k then .error (.operandOutOfRange k)
        else .ok (decodePair (BitVec.ofNat 3 op) (BitVec.ofNat 3 k), rest')

/-- The opcode of an instruction. -/
def Instr.opcode (i : Instr) : Opcode :=
  match i with
  | .divA _ => .divA
  | .xorLiteral _ => .xorLiteral
  | .modulo _ => .modulo
  | .jumpIfNonzero _ => .jumpIfNonzero
  | .xorRegisters _ => .xorRegisters
  | .output _ => .output
  | .divB _ => .divB
  | .divC _ => .divC

/-- The opcode cell of each opcode (30_encoding R66). -/
def Opcode.cell (o : Opcode) : ProgCell :=
  match o with
  | .divA => 0#3
  | .xorLiteral => 1#3
  | .modulo => 2#3
  | .jumpIfNonzero => 3#3
  | .xorRegisters => 4#3
  | .output => 5#3
  | .divB => 6#3
  | .divC => 7#3

/-- The operand cell of a register in a combo operand (30_encoding R64). -/
def Reg.code (r : Reg) : ProgCell :=
  match r with
  | .A => 4#3
  | .B => 5#3
  | .C => 6#3

/-- The operand cell of a combo operand (30_encoding R64). -/
def Combo.code (k : Combo) : ProgCell :=
  match k with
  | .lit n => BitVec.ofNat 3 n.val
  | .reg r => r.code
  | .reserved => 7#3

/-- The operand cell of an instruction. -/
def Instr.operandCell (i : Instr) : ProgCell :=
  match i with
  | .divA k => k.code
  | .xorLiteral k => k
  | .modulo k => k.code
  | .jumpIfNonzero k => k
  | .xorRegisters k => k
  | .output k => k.code
  | .divB k => k.code
  | .divC k => k.code

/-- The two cells of an instruction, opcode first (30_encoding R60, 20_memory R45). -/
def encode (i : Instr) : ProgCell × ProgCell := (i.opcode.cell, i.operandCell)

/-- The cells of a list of instructions, `op0, k0, op1, k1, …` (30_encoding R71). -/
def encodeProgram (is : List Instr) : List ProgCell :=
  match is with
  | [] => []
  | i :: rest => (encode i).1 :: (encode i).2 :: encodeProgram rest

/-- Read a list of cells in pairs from its start; an odd number of cells is no program (20_memory R42). -/
def decodeProgram (cells : List ProgCell) : Option (List Instr) :=
  match cells with
  | [] => some []
  | [_] => none
  | op :: k :: rest => (decodeProgram rest).map (decodePair op k :: ·)

/-- The pair as one number, `w = op ∥ k = op * 8 + k` (30_encoding R61): the numbering of spec/opcode_table.json,
whose opcode stands in bits 5..3 and whose operand stands in bits 2..0 (notes/assumptions/4.md). -/
def pairWord (op k : ProgCell) : Nat := op.toNat * 8 + k.toNat

/-- The raw opcode cell of a table word of `nbits` bits: everything above bit 2. -/
def wordOpcode (nbits w : Nat) : Nat := w % 2 ^ nbits / 8

/-- The raw operand cell of a table word of `nbits` bits: bits 2..0. -/
def wordOperand (nbits w : Nat) : Nat := w % 2 ^ nbits % 8

/-- The instruction the decoder reads from a table word. A word with a bit above bit 5 is an opcode above 7,
which the decoder rejects by name. -/
def decodeTableWord (nbits w : Nat) : Option Instr :=
  match decode [wordOpcode nbits w, wordOperand nbits w] with
  | .ok (i, _) => some i
  | .error _ => none

end Sys2Proof
end

