-- ==== Sys2Proof/Config.lean ====
section
/-! DEFINITION. The three open parameters of the machine (00_scope R6, R7, R8), each in ℕ ∪ {∞}.

`none` is ∞, the spec's default. The model takes them as arguments: a statement about every state is a
statement about every choice of them (notes/assumptions/2.md). There is no free value: the spec leaves no
result open (40_execute_cycle R89). -/

namespace Sys2Proof

/-- The parameters of a build. `none` stands for ∞. -/
structure Config where
  /-- REG_WIDTH: bits of each of A, B and C (00_scope R6). -/
  regWidth : Option Nat
  /-- PROG_LEN_MAX: the largest program length in cells (00_scope R7). -/
  progLenMax : Option Nat
  /-- OUT_CAP: the largest number of digits of the accumulator (00_scope R8). -/
  outCap : Option Nat
  deriving DecidableEq, Repr

/-- The defaults of R6 to R8: no limit. -/
def Config.unbounded : Config := { regWidth := none, progLenMax := none, outCap := none }

/-- "A finite REG_WIDTH must be at least 3" (00_scope R6). The other two may be any natural number. -/
def Config.wf (cfg : Config) : Bool :=
  match cfg.regWidth with
  | none => true
  | some w => 3 ≤ w

end Sys2Proof
end

