-- ==== Sys2Proof/Machine/State.lean ====
section
/-! DEFINITION. The machine's whole state (10_state R20), the reasons a step can stop, and the state after reset. -/

namespace Sys2Proof.Machine

/-- STATUS.STATE (10_state R33). -/
inductive RunState
  /-- Loaded, no step taken yet. -/
  | idle
  /-- At least one instruction completed, not halted or faulted. -/
  | active
  /-- Normal end: ip ≥ L at fetch. -/
  | halted
  /-- A fatal error ended the run. -/
  | faulted
  deriving DecidableEq, Repr

/-- STATUS.CAUSE (10_state R33, 60_exceptions R140). The reserved codes 5, 6, 7 have no constructor
(93_implementation_defined U10). -/
inductive Cause
  | none
  | decodeError
  | unknownOpcode
  | truncatedInstruction
  | outputOverflow
  deriving DecidableEq, Repr

/-- Program memory: the list of its 3-bit cells, cell `i` at index `i`, L its length (10_state R20, 20_memory R40,
R41). No index below L is unlisted and no index from L on exists, so equal memories are equal lists
(notes/assumptions/1.md). -/
abbrev Memory := List ProgCell

/-- L is even (20_memory R42). -/
abbrev Memory.wf (m : Memory) : Prop := m.length % 2 = 0

/-- The whole state. `cfg` is not the spec's state: it carries the parameters the model takes as arguments
(notes/assumptions/2.md), and nothing ever writes it. -/
structure State where
  /-- REG_WIDTH, PROG_LEN_MAX, OUT_CAP (00_scope R6 to R8). -/
  cfg : Config
  /-- PM (10_state R32). -/
  pm : Memory
  /-- Register A (10_state R21). -/
  a : Nat
  /-- Register B (10_state R21). -/
  b : Nat
  /-- Register C (10_state R21). -/
  c : Nat
  /-- The instruction pointer (10_state R26). -/
  ip : Nat
  /-- The output digit accumulator, oldest digit first (10_state R31). -/
  out : List Digit
  /-- STATUS.STATE (10_state R33). -/
  runState : RunState
  /-- STATUS.CAUSE (10_state R33). -/
  cause : Cause
  deriving DecidableEq, Repr

/-- Why there is no step (40_execute_cycle R81: "In HALTED and in FAULTED the machine has no step"). No instruction
raises one: an instruction's own fault is a next state with STATE = FAULTED (60_exceptions R145). Each carries the
terminal outcome that STEP and RUN report again (R146). -/
inductive Fault
  /-- Raised by `step` in STATE = HALTED; safe, the spec gives no step there (notes/assumptions/5.md). -/
  | halted
  /-- Raised by `step` in STATE = FAULTED, with CAUSE; safe, the spec gives no step there (notes/assumptions/5.md). -/
  | faulted (c : Cause)
  deriving DecidableEq, Repr

/-- Why an instruction has no meaning. -/
inductive Refusal
  /-- Raised by `exec` for an instruction not modelled yet; safe. No arm of `exec` raises it any more. -/
  | notModelled (mnemonic : String)
  deriving DecidableEq, Repr

/-- The state after LOAD([], 0, 0, 0) with the default parameters. Reset is LOAD (70_reset_and_hazards R170):
ip = 0, out = [], STATE = IDLE and CAUSE = NONE are R35's values; the program and the three register values are
LOAD's arguments, and the empty program and zeros are the model's choice of them (notes/assumptions/3.md). -/
def State.reset : State where
  cfg := Config.unbounded
  pm := []
  a := 0
  b := 0
  c := 0
  ip := 0
  out := []
  runState := .idle
  cause := .none

end Sys2Proof.Machine
end

