-- ==== Sys2Proof/Machine/Ops.lean ====
section
/-! DEFINITION. The named operations over the state: registers, program memory, the instruction pointer, the
accumulator, the arithmetic of 00_scope R11 and R14, raising a fault, halting and completing, and instruction fetch. -/

namespace Sys2Proof.Machine

/-! ### Arithmetic on naturals (00_scope R11, R14) -/

/-- `bitlen(v)`: the bits of v without leading zeros, `bitlen(0) = 0` (00_scope R11). -/
def bitlen (v : Nat) : Nat := if v = 0 then 0 else Nat.log2 v + 1

/-- The quotient `q(a, v) = a >> v` (41_division R100), for every natural v however large. -/
def quotient (a v : Nat) : Nat := a >>> v

/-- Exclusive OR of binary forms with unlimited leading zeros (42_bitwise R110). -/
def xorNat (a b : Nat) : Nat := a ^^^ b

/-- `v mod 8` (00_scope R14). -/
def mod8 (v : Nat) : Nat := v % 8

/-- `v mod 8` as an output digit (44_output R131). -/
def toDigit (v : Nat) : Digit := BitVec.ofNat 3 (mod8 v)

/-! ### Limits of the parameters (00_scope R6 to R8) -/

/-- v fits a register of REG_WIDTH bits (00_scope R6). -/
def Config.fitsReg (cfg : Config) (v : Nat) : Bool :=
  match cfg.regWidth with
  | none => true
  | some w => v < 2 ^ w

/-- A program of n cells fits PROG_LEN_MAX (00_scope R7). -/
def Config.fitsProg (cfg : Config) (n : Nat) : Bool :=
  match cfg.progLenMax with
  | none => true
  | some m => n ≤ m

/-- The accumulator is full: OUT_CAP is finite and `len(out) = OUT_CAP` (44_output R132). -/
def State.outFull (s : State) : Bool :=
  match s.cfg.outCap with
  | none => false
  | some n => s.out.length = n

/-! ### Registers, ip and out (00_scope R12) -/

/-- `x[r]`. -/
def State.readReg (s : State) (r : Reg) : Nat :=
  match r with
  | .A => s.a
  | .B => s.b
  | .C => s.c

/-- `x[r] <- v`. -/
def State.writeReg (s : State) (r : Reg) (v : Nat) : State :=
  match r with
  | .A => { s with a := v }
  | .B => { s with b := v }
  | .C => { s with c := v }

/-- `ip <- target`. -/
def State.setIp (s : State) (target : Nat) : State := { s with ip := target }

/-- `ip <- ip + 2` (43_control R120). -/
def State.advance (s : State) : State := s.setIp (s.ip + 2)

/-- `out <- out ++ [d]`. -/
def State.append (s : State) (d : Digit) : State := { s with out := s.out ++ [d] }

/-! ### Program memory (00_scope R13, 20_memory R40 to R48) -/

/-- `MemRead(i, 1)`: cell i for i < L = `s.pm.length`. No cell is answered exactly where i ≥ L (20_memory R48). -/
def State.memRead (s : State) (i : Nat) : Option ProgCell := s.pm[i]?

/-- Program memory as LOAD writes it from raw cells, each in 0..7 (60_exceptions R156). -/
def Memory.ofProgram (prog : List Nat) : Memory := prog.map (BitVec.ofNat 3 ·)

/-- Program memory with one pair at index i, filled up with zero cells to an even length that holds it.
Only `State.withFetchWord` uses it: no instruction writes program memory (20_memory R43). -/
def Memory.placePair (m : Memory) (i : Nat) (op k : ProgCell) : Memory :=
  ((m ++ List.replicate (i + 2 + i % 2 - m.length) 0#3).set i op).set (i + 1) k

/-! ### How a step ends -/

/-- STATE ∈ {IDLE, ACTIVE}: the machine has a step (40_execute_cycle R81). -/
def State.enabled (s : State) : Bool :=
  match s.runState with
  | .idle => true
  | .active => true
  | .halted => false
  | .faulted => false

/-- The outcome a terminal machine reports again (60_exceptions R146); none where the machine has a step. -/
def State.terminalFault (s : State) : Option Fault :=
  match s.runState with
  | .idle => none
  | .active => none
  | .halted => some .halted
  | .faulted => some (.faulted s.cause)

/-- Fault entry, the machine's one exception operation (60_exceptions R145, 00_scope R15): STATE := FAULTED,
CAUSE := the fault's, and nothing else. It saves nothing, changes no mode and has no handler; there is no return
from it (R146). -/
def State.raise (s : State) (c : Cause) : State := { s with runState := .faulted, cause := c }

/-- The halt of 40_execute_cycle R82: STATE := HALTED, and nothing else. -/
def State.halt (s : State) : State := { s with runState := .halted }

/-- The last act of a completed instruction: STATE := ACTIVE (40_execute_cycle R87). -/
def State.activate (s : State) : State := { s with runState := .active }

/-- An instruction that completes with its effect already in `s` and `ip <- ip + 2`. -/
def State.complete (s : State) : State := s.advance.activate

/-- The state of a freshly built machine (10_state R35, 70_reset_and_hazards R170). -/
def State.fresh (cfg : Config) (m : Memory) (a b c : Nat) : State where
  cfg := cfg
  pm := m
  a := a
  b := b
  c := c
  ip := 0
  out := []
  runState := .idle
  cause := .none

/-! ### Instruction fetch (40_execute_cycle R82 to R85) -/

/-- What the checks before an instruction's effect answer. -/
inductive Fetch
  /-- ip ≥ L: the step halts (R82). -/
  | pastEnd
  /-- The step raises this fault (R83, R84). -/
  | stop (c : Cause)
  /-- The instruction at ip (R85). -/
  | instr (i : Instr)
  deriving DecidableEq, Repr

/-- The checks of 40_execute_cycle R88 in its order: the halt test, the opcode fetch with the UnknownOpcode check
(never true of a 3-bit cell, kept as R83 keeps it), the truncation check, the operand fetch and the decode. Each test of
an index against L is the question whether that index has a cell. -/
def fetch (s : State) : Fetch :=
  match s.memRead s.ip with
  | none => .pastEnd
  | some op =>
    if 7 < op.toNat then .stop .unknownOpcode
    else
      match s.memRead (s.ip + 1) with
      | none => .stop .truncatedInstruction
      | some k => .instr (decodePair op k)

end Sys2Proof.Machine
end

