-- ==== Sys2Proof/Machine/Operands.lean ====
section
/-! DEFINITION. Operand resolution (30_encoding R62 to R65, 40_execute_cycle R86).

It is a pure function of the operand and the registers from before the step, so a resolution that fails cannot have
changed anything. -/

namespace Sys2Proof.Machine

/-- `combo(k)` (30_encoding R64). -/
def Combo.resolve (k : Combo) (s : State) : Except Cause Nat :=
  match k with
  | .lit n => .ok n.val
  | .reg r => .ok (s.readReg r)
  | .reserved => .error .decodeError

/-- A literal operand's value, `zext(k)` (30_encoding R63). -/
def literal (k : ProgCell) : Nat := k.toNat

/-- The shape of every combo-mode instruction: resolve first, and either raise with nothing else changed or hand the
value on (40_execute_cycle R86). -/
def withCombo (k : Combo) (s : State) (f : Nat → Host.Outcome State Fault Refusal) :
    Host.Outcome State Fault Refusal :=
  match Combo.resolve k s with
  | .error c => .next (s.raise c)
  | .ok v => f v

end Sys2Proof.Machine
end

