-- ==== Sys2Proof/Machine/Bitwise.lean ====
section
/-! DEFINITION. Bitwise and modulo operations on B (42_bitwise): XorLiteral, Modulo, XorRegisters. -/

namespace Sys2Proof.Machine

/-- XorLiteral, opcode 1 (42_bitwise R111). -/
def execXorLiteral (k : ProgCell) (s : State) : Host.Outcome State Fault Refusal :=
  .next (s.writeReg .B (xorNat (s.readReg .B) (literal k))).complete

/-- Modulo, opcode 2 (42_bitwise R112). -/
def execModulo (k : Combo) (s : State) : Host.Outcome State Fault Refusal :=
  withCombo k s fun v => .next (s.writeReg .B (mod8 v)).complete

/-- XorRegisters, opcode 4 (42_bitwise R113): its operand cell is fetched and ignored (30_encoding R65). -/
def execXorRegisters (_k : ProgCell) (s : State) : Host.Outcome State Fault Refusal :=
  .next (s.writeReg .B (xorNat (s.readReg .B) (s.readReg .C))).complete

end Sys2Proof.Machine
end

