-- ==== Sys2Proof/Machine/Control.lean ====
section
/-! DEFINITION. Control flow (43_control): JumpIfNonzero. -/

namespace Sys2Proof.Machine

/-- JumpIfNonzero, opcode 3 (43_control R121): an absolute target, taken when A ≠ 0. -/
def execJumpIfNonzero (k : ProgCell) (s : State) : Host.Outcome State Fault Refusal :=
  .next (if s.readReg .A ≠ 0 then (s.setIp (literal k)).activate else s.complete)

end Sys2Proof.Machine
end

