-- ==== Sys2Proof/Machine/Division.lean ====
section
/-! DEFINITION. Division by a power of two (41_division): DivA, DivB, DivC. -/

namespace Sys2Proof.Machine

/-- `x[r] <- x[A] >> combo(k)`, then `ip <- ip + 2`: the shape the three instructions share (41_division R100). -/
def divideInto (r : Reg) (k : Combo) (s : State) : Host.Outcome State Fault Refusal :=
  withCombo k s fun v => .next (s.writeReg r (quotient (s.readReg .A) v)).complete

/-- DivA, opcode 0 (41_division R101). -/
def execDivA (k : Combo) (s : State) : Host.Outcome State Fault Refusal := divideInto .A k s

/-- DivB, opcode 6 (41_division R102): B receives A's quotient, also when the combo value is 0 (R104). -/
def execDivB (k : Combo) (s : State) : Host.Outcome State Fault Refusal := divideInto .B k s

/-- DivC, opcode 7 (41_division R103): C receives A's quotient, also when the combo value is 0 (R104). -/
def execDivC (k : Combo) (s : State) : Host.Outcome State Fault Refusal := divideInto .C k s

end Sys2Proof.Machine
end

