-- ==== Sys2Proof/Machine/Output.lean ====
section
/-! DEFINITION. Output (44_output R131, R132). -/

namespace Sys2Proof.Machine

/-- Output, opcode 5: the operand resolves before the capacity check (60_exceptions R147). -/
def execOutput (k : Combo) (s : State) : Host.Outcome State Fault Refusal :=
  withCombo k s fun v =>
    if s.outFull then .next (s.raise .outputOverflow) else .next (s.append (toDigit v)).complete

end Sys2Proof.Machine
end

