-- ==== Sys2Proof/Machine/Dispatch.lean ====
section
/-! DEFINITION. One arm per instruction: the effect of an instruction once the fetch checks have passed
(40_execute_cycle R87). -/

namespace Sys2Proof.Machine

def exec (i : Instr) (s : State) : Host.Outcome State Fault Refusal :=
  match i with
  | .divA k => Sys2Proof.Machine.execDivA k s
  | .xorLiteral k => Sys2Proof.Machine.execXorLiteral k s
  | .modulo k => Sys2Proof.Machine.execModulo k s
  | .jumpIfNonzero k => Sys2Proof.Machine.execJumpIfNonzero k s
  | .xorRegisters k => Sys2Proof.Machine.execXorRegisters k s
  | .output k => Sys2Proof.Machine.execOutput k s
  | .divB k => Sys2Proof.Machine.execDivB k s
  | .divC k => Sys2Proof.Machine.execDivC k s

end Sys2Proof.Machine
end

