-- ==== Sys2Proof/Machine/Step.lean ====
section
/-! DEFINITION. One step (40_execute_cycle R80 to R88), and a state made to fetch a given instruction next. -/

namespace Sys2Proof.Machine

/-- STEP's transition (40_execute_cycle R88). In HALTED and FAULTED the machine has no step (R81): the fault names
the terminal outcome. A halt, a fault of the machine and a completed instruction are each a next state. -/
def step (s : State) : Host.Outcome State Fault Refusal :=
  match s.terminalFault with
  | some f => .fault f
  | none =>
    match fetch s with
    | .pastEnd => .next s.halt
    | .stop c => .next (s.raise c)
    | .instr i => exec i s

/-- `s` with the instruction of table word `w` placed at ip, and, if `s` is terminal, STATUS back at LOAD's
IDLE, NONE: the very next step runs that instruction. It stands for a LOAD from outside (notes/assumptions/4.md). -/
def State.withFetchWord (s : State) (nbits w : Nat) : State :=
  { s with
    pm := s.pm.placePair s.ip (BitVec.ofNat 3 (wordOpcode nbits w)) (BitVec.ofNat 3 (wordOperand nbits w))
    runState := if s.enabled then s.runState else .idle
    cause := if s.enabled then s.cause else .none }

end Sys2Proof.Machine
end

