-- ==== Sys2Proof/Machine/Text.lean ====
section
/-! DEFINITION. The two text views the spec defines: the host's rendering of the output (44_output R134) and the
assembler spelling of an instruction (30_encoding R71). Neither is part of the block. -/

namespace Sys2Proof.Machine

/-- The digits '0' to '7'. -/
def digitText (d : ProgCell) : String :=
  match d with
  | 0#3 => "0"
  | 1#3 => "1"
  | 2#3 => "2"
  | 3#3 => "3"
  | 4#3 => "4"
  | 5#3 => "5"
  | 6#3 => "6"
  | 7#3 => "7"

/-- The digits joined by ',' with no spaces and no trailing comma; the empty output is the empty string
(44_output R134). -/
def render (out : List Digit) : String :=
  match out with
  | [] => ""
  | [d] => digitText d
  | d :: rest => digitText d ++ "," ++ render rest

/-- The mnemonics of 30_encoding R71. -/
def Opcode.mnemonic (o : Opcode) : String :=
  match o with
  | .divA => "DivA"
  | .xorLiteral => "XorLiteral"
  | .modulo => "Modulo"
  | .jumpIfNonzero => "JumpIfNonzero"
  | .xorRegisters => "XorRegisters"
  | .output => "Output"
  | .divB => "DivB"
  | .divC => "DivC"

/-- A combo operand's spelling; the reserved operand has none (30_encoding R71). -/
def Combo.spelling (k : Combo) : Option String :=
  match k with
  | .lit n => some (digitText (BitVec.ofNat 3 n.val))
  | .reg .A => some "A"
  | .reg .B => some "B"
  | .reg .C => some "C"
  | .reserved => none

/-- An operand's spelling, by the instruction's mode (30_encoding R71). -/
def Instr.operandSpelling (i : Instr) : Option String :=
  match i with
  | .divA k => Combo.spelling k
  | .xorLiteral k => some (digitText k)
  | .modulo k => Combo.spelling k
  | .jumpIfNonzero k => some (digitText k)
  | .xorRegisters k => some (digitText k)
  | .output k => Combo.spelling k
  | .divB k => Combo.spelling k
  | .divC k => Combo.spelling k

/-- `mnemonic " " operand`; a reserved pair has no spelling (30_encoding R71). -/
def Instr.spelling (i : Instr) : Option String :=
  (Instr.operandSpelling i).map fun t => Opcode.mnemonic i.opcode ++ " " ++ t

/-- The 64 pairs, in the order of their words (30_encoding R61, R67). -/
def allPairs : List Instr :=
  (List.range 64).map fun w => decodePair (BitVec.ofNat 3 (w / 8)) (BitVec.ofNat 3 (w % 8))

/-- The instruction a spelling stands for (30_encoding R71). -/
def parseInstr (t : String) : Option Instr := allPairs.find? fun i => Instr.spelling i = some t

end Sys2Proof.Machine
end

