-- ==== Sys2Proof/Machine/Flags.lean ====
section
/-! DEFINITION. The status register. The machine has no flags, condition codes or predicates (10_state R30): no
instruction computes one, so there is no flag computation here. What it has is STATUS, 5 bits: STATE in bits 1..0 and
CAUSE in bits 4..2 (10_state R33; the layout and the codes are the spec's own, decision D8). -/

namespace Sys2Proof.Machine

/-- The code of STATE (10_state R33). -/
def RunState.code (r : RunState) : BitVec 2 :=
  match r with
  | .idle => 0#2
  | .active => 1#2
  | .halted => 2#2
  | .faulted => 3#2

/-- The code of CAUSE (10_state R33, 60_exceptions R140). -/
def Cause.code (c : Cause) : BitVec 3 :=
  match c with
  | .none => 0#3
  | .decodeError => 1#3
  | .unknownOpcode => 2#3
  | .truncatedInstruction => 3#3
  | .outputOverflow => 4#3

/-- STATUS = CAUSE ∥ STATE (10_state R33). -/
def State.status (s : State) : BitVec 5 := s.cause.code ++ s.runState.code

end Sys2Proof.Machine
end

