-- ==== Sys2Proof/Machine/Run.lean ====
section
/-! DEFINITION. Runs (40_execute_cycle R90, R91): the run relation, and an executor under a fuel bound. -/

namespace Sys2Proof.Machine

/-- One step leads from `s` to `t`. -/
def StepsTo (s t : State) : Prop := step s = .next t

/-- RUN's relation: the reflexive-transitive closure of the step relation (40_execute_cycle R91). It need not reach a
terminal state (43_control R124). -/
def Runs (s t : State) : Prop := Relation.ReflTransGen StepsTo s t

/-- A run from `s` that ends in HALTED, with final state `t` (43_control R123). -/
def HaltsAt (s t : State) : Prop := Runs s t ∧ t.runState = .halted

/-- A run from `s` that ends in FAULTED, with final state `t` (43_control R123). -/
def FaultsAt (s t : State) : Prop := Runs s t ∧ t.runState = .faulted

/-- What RUN returns (40_execute_cycle R90). `outOfFuel` is the executor's own outcome: it is no halt (R91). -/
inductive RunOutcome
  | halted
  | fault (c : Cause)
  | outOfFuel
  deriving DecidableEq, Repr

/-- What RUN returns in a state it goes no further from. -/
def runOutcome (s : State) : RunOutcome :=
  match s.terminalFault with
  | none => .outOfFuel
  | some .halted => .halted
  | some (.faulted c) => .fault c

/-- The executor: at most `fuel` steps, stopping where the machine has no step (40_execute_cycle R91). -/
def runFuel (fuel : Nat) (s : State) : State × RunOutcome :=
  match fuel with
  | 0 => (s, runOutcome s)
  | n + 1 =>
    match step s with
    | .next t => runFuel n t
    | .fault _ => (s, runOutcome s)
    | .refused _ => (s, runOutcome s)

/-- The state after at most `n` steps from `s`. -/
def stateAt (s : State) (n : Nat) : State := (runFuel n s).1

/-- The instruction the next step from `s` executes, if it gets past the checks of R82 to R85. -/
def nextInstr (s : State) : Option Instr :=
  match s.terminalFault with
  | some _ => none
  | none =>
    match fetch s with
    | .pastEnd => none
    | .stop _ => none
    | .instr i => some i

/-- The next step from `s` is a taken JumpIfNonzero whose target is at or below ip (43_control R125). -/
def backwardJump (s : State) : Bool :=
  match nextInstr s with
  | some (.jumpIfNonzero k) => s.a ≠ 0 && literal k ≤ s.ip
  | _ => false

/-- The next step from `s` is a DivA with a combo value of at least 1 (43_control R125). -/
def shrinksA (s : State) : Bool :=
  match nextInstr s with
  | some (.divA k) =>
    match Combo.resolve k s with
    | .ok v => 1 ≤ v
    | .error _ => false
  | _ => false

/-- The next step from `s` completes an Output (44_output R130). -/
def completesOutput (s : State) : Bool :=
  match nextInstr s with
  | some (.output k) => k.valid && !s.outFull
  | _ => false

/-- How many of the states before step `n` of the run from `s` satisfy `p`. -/
def countSteps (p : State → Bool) (s : State) (n : Nat) : Nat :=
  ((List.range n).filter fun m => p (stateAt s m)).length

end Sys2Proof.Machine
end

