-- ==== Sys2Proof/Machine/HostPort.lean ====
section
/-! DEFINITION. The host interface (60_exceptions R156 to R159). A host operation lands between steps, never inside
one (R148). -/

namespace Sys2Proof.Machine

/-- The operations of 60_exceptions R156. LOAD's program is a list of natural numbers, so that a value outside 0..7 can
be passed and refused (R157). RUN carries the fuel of the executor of 40_execute_cycle R91. -/
inductive HostOp
  | load (prog : List Nat) (a b c : Nat)
  | writeReg (r : Reg) (v : Nat)
  | readReg (r : Reg)
  | readIp
  | readStatus
  | readOutput
  | step
  | run (fuel : Nat)
  deriving DecidableEq, Repr

/-- The four reasons of 60_exceptions R157, in its order. -/
inductive LoadRefusal
  | oddLength
  | cellOutOfRange
  | tooLong
  | registerTooWide
  deriving DecidableEq, Repr

/-- What STEP returns (60_exceptions R156). `noMeaning` would report an instruction `exec` has no meaning for; there
is none. -/
inductive StepOutcome
  | next
  | halted
  | fault (c : Cause)
  | noMeaning (r : Refusal)
  deriving DecidableEq, Repr

/-- What a host operation returns. -/
inductive HostReply
  | ok
  | loadRefused (r : LoadRefusal)
  | writeRefused
  | value (v : Nat)
  | status (w : BitVec 5)
  | digits (ds : List Digit)
  | stepped (o : StepOutcome)
  | ran (o : RunOutcome)
  deriving DecidableEq, Repr

/-- LOAD's checks (60_exceptions R157). Where several fail, the first in the rule's order is the reason returned
(notes/assumptions/8.md). -/
def loadCheck (cfg : Config) (prog : List Nat) (a b c : Nat) : Option LoadRefusal :=
  if prog.length % 2 ≠ 0 then some .oddLength
  else if prog.any (fun x => 7 < x) then some .cellOutOfRange
  else if !Config.fitsProg cfg prog.length then some .tooLong
  else if !(Config.fitsReg cfg a && Config.fitsReg cfg b && Config.fitsReg cfg c) then some .registerTooWide
  else none

/-- LOAD, the machine's reset (70_reset_and_hazards R170): a fresh state, or the old state kept. -/
def hostLoad (prog : List Nat) (a b c : Nat) (s : State) : State × HostReply :=
  match loadCheck s.cfg prog a b c with
  | some r => (s, .loadRefused r)
  | none => (State.fresh s.cfg (Memory.ofProgram prog) a b c, .ok)

/-- WRITE_REG (60_exceptions R156, R158): in IDLE only, and only a value that fits. -/
def hostWriteReg (r : Reg) (v : Nat) (s : State) : State × HostReply :=
  if s.runState = .idle ∧ Config.fitsReg s.cfg v then (s.writeReg r v, .ok) else (s, .writeRefused)

/-- What STEP returns for a step that ends in `t`. -/
def stepOutcome (t : State) : StepOutcome :=
  match t.terminalFault with
  | none => .next
  | some .halted => .halted
  | some (.faulted c) => .fault c

/-- STEP (60_exceptions R156): on a terminal machine no transition and no change, and the terminal outcome again. -/
def hostStep (s : State) : State × HostReply :=
  match step s with
  | .next t => (t, .stepped (stepOutcome t))
  | .fault _ => (s, .stepped (stepOutcome s))
  | .refused r => (s, .stepped (.noMeaning r))

/-- RUN under fuel (60_exceptions R156, 40_execute_cycle R90, R91). -/
def hostRun (fuel : Nat) (s : State) : State × HostReply :=
  ((runFuel fuel s).1, .ran (runFuel fuel s).2)

/-- One host operation (60_exceptions R156): the state it leaves and what it returns. -/
def hostDo (op : HostOp) (s : State) : State × HostReply :=
  match op with
  | .load prog a b c => hostLoad prog a b c s
  | .writeReg r v => hostWriteReg r v s
  | .readReg r => (s, .value (s.readReg r))
  | .readIp => (s, .value s.ip)
  | .readStatus => (s, .status s.status)
  | .readOutput => (s, .digits s.out)
  | .step => hostStep s
  | .run fuel => hostRun fuel s

/-- A sequence of host operations, first to last: the state it leaves. -/
def hostSession (ops : List HostOp) (s : State) : State :=
  match ops with
  | [] => s
  | op :: rest => hostSession rest (hostDo op s).1

/-- The run's result: the output of a halted machine. A faulted run has none, whatever `out` holds, and an unfinished
one has none yet (43_control R123, 44_output R133, 60_exceptions R159). -/
def State.result (s : State) : Option (List Digit) :=
  match s.runState with
  | .halted => some s.out
  | .idle => none
  | .active => none
  | .faulted => none

end Sys2Proof.Machine
end

