-- ==== Sys2Proof/Safety.lean ====
section
/-! DEFINITION. What every reachable state satisfies, and what counts as a safe run. -/

namespace Sys2Proof.Machine

/-- The invariant of the machine. Each field is a rule of the spec about every reachable state. -/
structure State.Inv (s : State) : Prop where
  /-- A finite REG_WIDTH is at least 3 (00_scope R6). -/
  cfg_wf : s.cfg.wf = true
  /-- L is even (20_memory R42). -/
  pm_wf : Memory.wf s.pm
  /-- `L ≤ PROG_LEN_MAX` (20_memory R42). -/
  pm_fits : Config.fitsProg s.cfg s.pm.length = true
  /-- Every register is below 2^REG_WIDTH (10_state R22, R25). -/
  regs_fit : ∀ r, Config.fitsReg s.cfg (s.readReg r) = true
  /-- `ip ≤ max(L, 7)` (10_state R28). -/
  ip_le : s.ip ≤ max s.pm.length 7
  /-- `len(out) ≤ OUT_CAP` (10_state R31). -/
  out_fits : ∀ n, s.cfg.outCap = some n → s.out.length ≤ n
  /-- CAUSE ≠ NONE exactly when STATE = FAULTED (10_state R33). -/
  cause_iff : s.cause ≠ .none ↔ s.runState = .faulted
  /-- In IDLE no step has been taken: ip = 0 and out = [] (10_state R33, R35). -/
  idle_fresh : s.runState = .idle → s.ip = 0 ∧ s.out = []
  /-- A halted ip is past the end (40_execute_cycle R82, 43_control R123). -/
  halted_past : s.runState = .halted → s.pm.length ≤ s.ip
  /-- A faulted ip points at the faulting instruction (60_exceptions R145). -/
  faulted_inside : s.runState = .faulted → s.ip < s.pm.length
  /-- UnknownOpcode is never raised (60_exceptions R142). -/
  cause_known : s.cause ≠ .unknownOpcode

/-- A safe run from `s`: it reaches no FAULTED state (43_control R123). -/
def NeverFaults (s : State) : Prop := ∀ t, Runs s t → t.runState ≠ .faulted

end Sys2Proof.Machine
end

