-- ==== Sys2Proof/Certificates/Slice0/Obligations.lean ====
section
/-! DEFINITION. The statements for the provers. Each docstring names the rule of spec/ it formalises. A rule the spec
marks as its own decision (D<n> of 92_eei_decisions) or as derived is named in the docstring, and the statement's basis
is then 'derived'. The statements speak of every state, so of every choice of REG_WIDTH, PROG_LEN_MAX and OUT_CAP
(notes/assumptions/2.md). -/

namespace Sys2Proof.Spec

open Sys2Proof Sys2Proof.Machine

/-- The combo table of 30_encoding R64 by the operand cell's number, for the cells 0..6. -/
def comboValue (k : ProgCell) (s : State) : Nat :=
  if k.toNat ≤ 3 then k.toNat else if k.toNat = 4 then s.a else if k.toNat = 5 then s.b else s.c

/-- The combo-mode opcodes of 30_encoding R62: DivA, Modulo, Output, DivB, DivC. -/
abbrev comboOpcode (op : ProgCell) : Prop := op = 0 ∨ op = 2 ∨ op = 5 ∨ op = 6 ∨ op = 7

/-- STATE ∈ {IDLE, ACTIVE}: the machine has a step (40_execute_cycle R81). -/
abbrev ready (s : State) : Prop := s.runState = .idle ∨ s.runState = .active

/-- The state of 60_exceptions R145: STATE = FAULTED, CAUSE = c, nothing else changed. -/
def faulted (s : State) (c : Cause) : State := { s with runState := .faulted, cause := c }

/-- `s` with register r holding x, and nothing else changed. -/
def withReg (s : State) (r : Reg) (x : Nat) : State :=
  match r with
  | .A => { s with a := x }
  | .B => { s with b := x }
  | .C => { s with c := x }

/-- "Read by" of 10_state R23's table. -/
def reads (i : Instr) (r : Reg) : Prop :=
  match i with
  | .divA k => r = .A ∨ k = .reg r
  | .xorLiteral _ => r = .B
  | .modulo k => k = .reg r
  | .jumpIfNonzero _ => r = .A
  | .xorRegisters _ => r = .B ∨ r = .C
  | .output k => k = .reg r
  | .divB k => r = .A ∨ k = .reg r
  | .divC k => r = .A ∨ k = .reg r

/-- "Written by" of 10_state R23's table. -/
def writes (i : Instr) (r : Reg) : Prop :=
  match i with
  | .divA _ => r = .A
  | .xorLiteral _ => r = .B
  | .modulo _ => r = .B
  | .jumpIfNonzero _ => False
  | .xorRegisters _ => r = .B
  | .output _ => False
  | .divB _ => r = .B
  | .divC _ => r = .C

/-- v fits REG_WIDTH bits (00_scope R6). -/
def fits (cfg : Config) (v : Nat) : Prop := ∀ w, cfg.regWidth = some w → v < 2 ^ w

/-- LOAD's arguments meet 60_exceptions R157. -/
def loadable (cfg : Config) (prog : List Nat) (a b c : Nat) : Prop :=
  prog.length % 2 = 0 ∧ (∀ x ∈ prog, x ≤ 7) ∧ (∀ m, cfg.progLenMax = some m → prog.length ≤ m) ∧
    fits cfg a ∧ fits cfg b ∧ fits cfg c

end Sys2Proof.Spec

open Sys2Proof Sys2Proof.Machine

/-! ### Encoding -/

/-- 30_encoding R61, R66 and the words of spec/opcode_table.json: one word of each family, written out in its bits,
decodes to the instruction it stands for. -/
def Obligations.WrittenOutWordsDecode : Prop :=
  decodeTableWord 8 0b000001 = some (.divA (.lit 1)) ∧
  decodeTableWord 8 0b001111 = some (.xorLiteral 7) ∧
  decodeTableWord 8 0b010100 = some (.modulo (.reg .A)) ∧
  decodeTableWord 8 0b011000 = some (.jumpIfNonzero 0) ∧
  decodeTableWord 8 0b100111 = some (.xorRegisters 7) ∧
  decodeTableWord 8 0b101110 = some (.output (.reg .C)) ∧
  decodeTableWord 8 0b110101 = some (.divB (.reg .B)) ∧
  decodeTableWord 8 0b111111 = some (.divC .reserved)

/-- 30_encoding R62 with R63 to R65 as its "what k means" column: the mode of every opcode; the operand each opcode's
instruction carries, which is k itself for the literal opcodes and the combo operand of k for the combo ones; and what
that operand means: the value itself, combo(k), or nothing. -/
def Obligations.OpcodeFixesTheOperandMode : Prop :=
  ∀ op : ProgCell,
    ((decodeOpcode op).mode = .literal ↔ op = 1 ∨ op = 3) ∧
    ((decodeOpcode op).mode = .combo ↔ Spec.comboOpcode op) ∧
    ((decodeOpcode op).mode = .ignored ↔ op = 4) ∧
    (∀ k : ProgCell, (op = 1 → decodePair op k = .xorLiteral k) ∧ (op = 3 → decodePair op k = .jumpIfNonzero k) ∧
      literal k = k.toNat) ∧
    (∀ k : ProgCell, (op = 0 → decodePair op k = .divA (Combo.ofCode k)) ∧
      (op = 2 → decodePair op k = .modulo (Combo.ofCode k)) ∧ (op = 5 → decodePair op k = .output (Combo.ofCode k)) ∧
      (op = 6 → decodePair op k = .divB (Combo.ofCode k)) ∧ (op = 7 → decodePair op k = .divC (Combo.ofCode k)) ∧
      ∀ s : State, Combo.resolve (Combo.ofCode k) s =
        if k = 7 then .error .decodeError else .ok (Spec.comboValue k s)) ∧
    (∀ k : ProgCell, op = 4 → decodePair op k = .xorRegisters k ∧
      ∀ (k' : ProgCell) (s : State), exec (decodePair op k) s = exec (decodePair op k') s)

/-- 30_encoding R64: combo(k), code by code. -/
def Obligations.ComboCodesResolve : Prop :=
  ∀ s : State,
    Combo.resolve (Combo.ofCode 0) s = .ok 0 ∧ Combo.resolve (Combo.ofCode 1) s = .ok 1 ∧
    Combo.resolve (Combo.ofCode 2) s = .ok 2 ∧ Combo.resolve (Combo.ofCode 3) s = .ok 3 ∧
    Combo.resolve (Combo.ofCode 4) s = .ok s.a ∧ Combo.resolve (Combo.ofCode 5) s = .ok s.b ∧
    Combo.resolve (Combo.ofCode 6) s = .ok s.c ∧ Combo.resolve (Combo.ofCode 7) s = .error .decodeError

/-- 30_encoding R67: executing a pair raises DecodeError, and changes nothing but STATUS, exactly for the five reserved
pairs 0o07, 0o27, 0o57, 0o67, 0o77; the other 59 of the 64 pairs are the valid instructions. -/
def Obligations.ReservedPairsAreExactlyFive : Prop :=
  (∀ (op k : ProgCell) (s : State),
    (exec (decodePair op k) s = .next (Spec.faulted s .decodeError) ↔
      pairWord op k ∈ [0o07, 0o27, 0o57, 0o67, 0o77]) ∧
    ((decodePair op k).wellFormed = false ↔ pairWord op k ∈ [0o07, 0o27, 0o57, 0o67, 0o77])) ∧
  (allPairs.filter fun i => i.wellFormed).length = 59 ∧ allPairs.Nodup ∧ ∀ i : Instr, i ∈ allPairs

/-- 30_encoding R61, R70: encoding and decoding a pair are inverse in both directions, for every operand (a reserved
combo operand too, which the decoder keeps). No bit of a pair is dropped. -/
def Obligations.DecodeOfEncodeIsTheInstruction : Prop :=
  (∀ i : Instr, decodePair (encode i).1 (encode i).2 = i) ∧
  (∀ op k : ProgCell, encode (decodePair op k) = (op, k)) ∧
  (∀ i : Instr, decodeTableWord 8 (pairWord (encode i).1 (encode i).2) = some i)

/-- 30_encoding R68 (the spec's own decision D2), 00_scope R5: raw cells that no 3-bit cell holds are rejected by name,
an opcode first, and all others decode as the pair they are. -/
def Obligations.RawCellsAreRejectedByName : Prop :=
  decode [] = .error .truncated ∧
  (∀ (op : Nat) (rest : List Nat), 7 < op → decode (op :: rest) = .error (.unknownOpcode op)) ∧
  (∀ op : Nat, op ≤ 7 → decode [op] = .error .truncated) ∧
  (∀ (op k : Nat) (rest : List Nat), op ≤ 7 → 7 < k → decode (op :: k :: rest) = .error (.operandOutOfRange k)) ∧
  (∀ (op k : ProgCell) (rest : List Nat), decode (op.toNat :: k.toNat :: rest) = .ok (decodePair op k, rest))

/-- 30_encoding R71 (the spec's own decision D20), 20_memory R42: the cells of a list of instructions decode to that
list, a list of cells decodes exactly when its length is even, and it is then the encoding of what it decodes to. -/
def Obligations.DecodeOfEncodedProgramIsTheProgram : Prop :=
  (∀ is : List Instr, decodeProgram (encodeProgram is) = some is) ∧
  (∀ (cells : List ProgCell) (is : List Instr), decodeProgram cells = some is → encodeProgram is = cells) ∧
  (∀ cells : List ProgCell, (∃ is, decodeProgram cells = some is) ↔ Memory.wf cells)

/-- 30_encoding R71, 40_execute_cycle R85 to R87: in a machine whose program memory is the encoding of a list of
instructions, a step at index 2n runs the n-th instruction, whichever list and whichever n; a step at or past the
end halts. -/
def Obligations.EncodedProgramRunsItsInstructions : Prop :=
  ∀ (is : List Instr) (s : State), Spec.ready s → s.pm = encodeProgram is →
    (∀ (n : Nat) (i : Instr), is[n]? = some i → s.ip = 2 * n → step s = exec i s) ∧
    (2 * is.length ≤ s.ip → step s = .next { s with runState := .halted })

/-! ### Division -/

/-- 41_division R100 (the spec's own decision D16): the quotient is floor(a / 2^v) for every v, with the rule's corner
cases and its bit length. -/
def Obligations.QuotientIsFloorOfDivision : Prop :=
  ∀ a v : Nat, quotient a v = a / 2 ^ v ∧ (bitlen a ≤ v → quotient a v = 0) ∧ quotient a 0 = a ∧
    quotient a v ≤ a ∧ bitlen (quotient a v) = bitlen a - v

/-- 41_division R101: DivA. Its pair, its result in every valid form with everything else unchanged, its corner cases
k = 0 and k = 4, and its two faults. (The truncation fault is the spec's own decision D7, which R101 takes up.) -/
def Obligations.DivADividesA : Prop :=
  ∀ s : State,
    (∀ k : ProgCell, decodePair 0 k = .divA (Combo.ofCode k)) ∧
    (∀ k : ProgCell, k ≠ 7 → exec (.divA (Combo.ofCode k)) s =
      .next { s with a := s.a / 2 ^ Spec.comboValue k s, ip := s.ip + 2, runState := .active }) ∧
    exec (.divA (Combo.ofCode 0)) s = .next { s with ip := s.ip + 2, runState := .active } ∧
    exec (.divA (Combo.ofCode 4)) s = .next { s with a := 0, ip := s.ip + 2, runState := .active } ∧
    exec (.divA (Combo.ofCode 7)) s = .next (Spec.faulted s .decodeError) ∧
    (Spec.ready s → s.pm[s.ip]? = some 0 → s.ip + 1 = s.pm.length →
      step s = .next (Spec.faulted s .truncatedInstruction))

/-- 41_division R102 (integer quotient: the spec's own decision D16): DivB, as DivA but written to B. k = 0 copies A
into B, k = 4 gives 0, k = 5 shifts by B's value from before the step. -/
def Obligations.DivBDividesAIntoB : Prop :=
  ∀ s : State,
    (∀ k : ProgCell, decodePair 6 k = .divB (Combo.ofCode k)) ∧
    (∀ k : ProgCell, k ≠ 7 → exec (.divB (Combo.ofCode k)) s =
      .next { s with b := s.a / 2 ^ Spec.comboValue k s, ip := s.ip + 2, runState := .active }) ∧
    exec (.divB (Combo.ofCode 0)) s = .next { s with b := s.a, ip := s.ip + 2, runState := .active } ∧
    exec (.divB (Combo.ofCode 4)) s = .next { s with b := 0, ip := s.ip + 2, runState := .active } ∧
    exec (.divB (Combo.ofCode 7)) s = .next (Spec.faulted s .decodeError) ∧
    (Spec.ready s → s.pm[s.ip]? = some 6 → s.ip + 1 = s.pm.length →
      step s = .next (Spec.faulted s .truncatedInstruction))

/-- 41_division R103 (integer quotient: the spec's own decision D16): DivC, as DivA but written to C. -/
def Obligations.DivCDividesAIntoC : Prop :=
  ∀ s : State,
    (∀ k : ProgCell, decodePair 7 k = .divC (Combo.ofCode k)) ∧
    (∀ k : ProgCell, k ≠ 7 → exec (.divC (Combo.ofCode k)) s =
      .next { s with c := s.a / 2 ^ Spec.comboValue k s, ip := s.ip + 2, runState := .active }) ∧
    exec (.divC (Combo.ofCode 0)) s = .next { s with c := s.a, ip := s.ip + 2, runState := .active } ∧
    exec (.divC (Combo.ofCode 4)) s = .next { s with c := 0, ip := s.ip + 2, runState := .active } ∧
    exec (.divC (Combo.ofCode 7)) s = .next (Spec.faulted s .decodeError) ∧
    (Spec.ready s → s.pm[s.ip]? = some 7 → s.ip + 1 = s.pm.length →
      step s = .next (Spec.faulted s .truncatedInstruction))

/-- 41_division R104, 90_conflicts C1: with a combo operand that resolves to 0, DivA leaves A unchanged and DivB and
DivC copy A; with k = 4 and A = 0 every destination becomes 0. -/
def Obligations.ComboValueZeroCopiesA : Prop :=
  ∀ (k : Combo) (s : State), Combo.resolve k s = .ok 0 →
    (∃ t, exec (.divA k) s = .next t ∧ t.a = s.a ∧ t.b = s.b ∧ t.c = s.c) ∧
    (∃ t, exec (.divB k) s = .next t ∧ t.a = s.a ∧ t.b = s.a ∧ t.c = s.c) ∧
    (∃ t, exec (.divC k) s = .next t ∧ t.a = s.a ∧ t.b = s.b ∧ t.c = s.a) ∧
    (k = .reg .A → ∃ t u v, exec (.divA k) s = .next t ∧ t.a = 0 ∧ exec (.divB k) s = .next u ∧ u.b = 0 ∧
      exec (.divC k) s = .next v ∧ v.c = 0)

/-! ### Bitwise operations -/

/-- 42_bitwise R110 (the spec's own decision D17): XOR on unbounded naturals, bit by bit, with the rule's laws. -/
def Obligations.XorWorksBitByBit : Prop :=
  ∀ a b : Nat,
    (∀ i, (xorNat a b).testBit i = (a.testBit i != b.testBit i)) ∧
    bitlen (xorNat a b) ≤ max (bitlen a) (bitlen b) ∧
    xorNat a 0 = a ∧ xorNat a a = 0 ∧ xorNat a b = xorNat b a ∧
    (∀ c, xorNat (xorNat a b) c = xorNat a (xorNat b c)) ∧
    (b ≤ 7 → xorNat a b / 8 = a / 8)

/-- 42_bitwise R111: XorLiteral. Its pair; its result for every k, 7 included, with everything else unchanged: B[2:0]
flips by k, bits 3 and up are kept; its only fault. -/
def Obligations.XorLiteralFlipsLowBitsOfB : Prop :=
  ∀ s : State,
    (∀ k : ProgCell, decodePair 1 k = .xorLiteral k) ∧
    (∀ k : ProgCell, ∃ v, exec (.xorLiteral k) s = .next { s with b := v, ip := s.ip + 2, runState := .active } ∧
      v = s.b ^^^ k.toNat ∧ v / 8 = s.b / 8 ∧ (k = 0 → v = s.b) ∧ (k = 7 → v % 8 = 7 - s.b % 8) ∧
      (s.b = 0 → v = k.toNat)) ∧
    (Spec.ready s → s.pm[s.ip]? = some 1 → s.ip + 1 = s.pm.length →
      step s = .next (Spec.faulted s .truncatedInstruction))

/-- 42_bitwise R112: Modulo. Its pair, its result in every valid form with everything else unchanged, the k = 5 form
reading B before writing it, and its two faults. -/
def Obligations.ModuloKeepsLowThreeBits : Prop :=
  ∀ s : State,
    (∀ k : ProgCell, decodePair 2 k = .modulo (Combo.ofCode k)) ∧
    (∀ k : ProgCell, k ≠ 7 → ∃ v, exec (.modulo (Combo.ofCode k)) s =
      .next { s with b := v, ip := s.ip + 2, runState := .active } ∧ v = Spec.comboValue k s % 8 ∧ v < 8) ∧
    (∀ k : ProgCell, k.toNat ≤ 3 → exec (.modulo (Combo.ofCode k)) s =
      .next { s with b := k.toNat, ip := s.ip + 2, runState := .active }) ∧
    exec (.modulo (Combo.ofCode 5)) s = .next { s with b := s.b % 8, ip := s.ip + 2, runState := .active } ∧
    exec (.modulo (Combo.ofCode 7)) s = .next (Spec.faulted s .decodeError) ∧
    (Spec.ready s → s.pm[s.ip]? = some 2 → s.ip + 1 = s.pm.length →
      step s = .next (Spec.faulted s .truncatedInstruction))

/-- 42_bitwise R113 (the ignored operand cell is the spec's own decision D15): XorRegisters. Its pair, its result for
every k, 7 included, with everything else unchanged, and its only fault. -/
def Obligations.XorRegistersXorsBWithC : Prop :=
  ∀ s : State,
    (∀ k : ProgCell, decodePair 4 k = .xorRegisters k) ∧
    (∀ k : ProgCell, ∃ v, exec (.xorRegisters k) s = .next { s with b := v, ip := s.ip + 2, runState := .active } ∧
      v = s.b ^^^ s.c ∧ (s.b = s.c → v = 0) ∧ (s.c = 0 → v = s.b) ∧ bitlen v ≤ max (bitlen s.b) (bitlen s.c)) ∧
    (Spec.ready s → s.pm[s.ip]? = some 4 → s.ip + 1 = s.pm.length →
      step s = .next (Spec.faulted s .truncatedInstruction))

/-! ### Control flow -/

/-- 43_control R121: JumpIfNonzero. Its pair; ip becomes the literal k when A ≠ 0 and ip + 2 otherwise, with everything
else unchanged, A included; a target ≥ L halts at the next step; a target of L - 1 raises TruncatedInstruction at the
next step; and its only fault. -/
def Obligations.JumpIfNonzeroSetsIp : Prop :=
  ∀ s : State,
    (∀ k : ProgCell, decodePair 3 k = .jumpIfNonzero k) ∧
    (∀ k : ProgCell, exec (.jumpIfNonzero k) s =
      .next { s with ip := if s.a ≠ 0 then k.toNat else s.ip + 2, runState := .active }) ∧
    (∀ (k : ProgCell) (t : State), s.a ≠ 0 → exec (.jumpIfNonzero k) s = .next t →
      (s.pm.length ≤ k.toNat → step t = .next { t with runState := .halted }) ∧
      (k.toNat + 1 = s.pm.length → step t = .next (Spec.faulted t .truncatedInstruction))) ∧
    (Spec.ready s → s.pm[s.ip]? = some 3 → s.ip + 1 = s.pm.length →
      step s = .next (Spec.faulted s .truncatedInstruction))

/-- 43_control R120: a completed instruction other than a JumpIfNonzero with A ≠ 0 leaves ip + 2, which is at most L;
where that reaches L, the next step halts. -/
def Obligations.OtherInstructionsAdvanceByTwo : Prop :=
  ∀ (s t : State) (op k : ProgCell), s.pm[s.ip]? = some op → s.pm[s.ip + 1]? = some k → (op = 3 → s.a = 0) →
    step s = .next t → t.runState = .active →
    t.ip = s.ip + 2 ∧ t.ip ≤ t.pm.length ∧
      (t.ip = t.pm.length → step t = .next { t with runState := .halted })

/-- 43_control R122: the only way a step sets ip to anything but ip + 2, other than a halt or a fault, which keep it, is
a JumpIfNonzero with A ≠ 0, and ip is then its literal, at most 7. -/
def Obligations.OnlyTakenJumpRedirects : Prop :=
  ∀ s t : State, step s = .next t → t.runState = .active → t.ip ≠ s.ip + 2 →
    ∃ k : ProgCell, s.pm[s.ip]? = some 3 ∧ s.pm[s.ip + 1]? = some k ∧ s.a ≠ 0 ∧ t.ip = k.toNat ∧ t.ip ≤ 7

/-- 10_state R29, 90_conflicts C6: ip need not be even. A taken jump may set it odd; at an odd index the machine runs
the pair (PM[ip], PM[ip+1]) like any other; and from an odd ip only a taken jump leads to an even one. -/
def Obligations.OddIpPersistsUntilAJump : Prop :=
  ∀ s : State, Spec.ready s →
    (∀ k : ProgCell, s.pm[s.ip]? = some 3 → s.pm[s.ip + 1]? = some k → s.a ≠ 0 →
      ∃ t, step s = .next t ∧ t.ip = k.toNat) ∧
    (∀ op k : ProgCell, s.pm[s.ip]? = some op → s.pm[s.ip + 1]? = some k → s.ip % 2 = 1 →
      step s = exec (decodePair op k) s) ∧
    (∀ t : State, step s = .next t → s.ip % 2 = 1 → t.ip % 2 = 0 → s.pm[s.ip]? = some 3 ∧ s.a ≠ 0)

/-! ### Output -/

/-- 44_output R131: Output. Its pair; one digit, the combo value mod 8, appended at the end with everything else
unchanged, where the accumulator is not full; and its three faults. (Truncation and overflow are the spec's own
decisions D7 and D12, which R131 takes up.) -/
def Obligations.OutputAppendsOneDigit : Prop :=
  ∀ s : State,
    (∀ k : ProgCell, decodePair 5 k = .output (Combo.ofCode k)) ∧
    (∀ k : ProgCell, k ≠ 7 → s.cfg.outCap ≠ some s.out.length →
      ∃ d : Digit, d.toNat = Spec.comboValue k s % 8 ∧ exec (.output (Combo.ofCode k)) s =
        .next { s with out := s.out ++ [d], ip := s.ip + 2, runState := .active }) ∧
    (∀ k : ProgCell, k ≠ 7 → s.cfg.outCap = some s.out.length →
      exec (.output (Combo.ofCode k)) s = .next (Spec.faulted s .outputOverflow)) ∧
    exec (.output (Combo.ofCode 7)) s = .next (Spec.faulted s .decodeError) ∧
    (Spec.ready s → s.pm[s.ip]? = some 5 → s.ip + 1 = s.pm.length →
      step s = .next (Spec.faulted s .truncatedInstruction))

/-- 44_output R132, 60_exceptions R144 (the spec's own decision D12): a step enters OutputOverflow exactly when an
Output whose operand resolves finds `len(out) = OUT_CAP`, OUT_CAP finite; with OUT_CAP = ∞ no step does. -/
def Obligations.OverflowExactlyWhenFull : Prop :=
  ∀ s t : State, s.cause = .none → step s = .next t →
    (t.cause = .outputOverflow ↔
      ∃ k : ProgCell, s.pm[s.ip]? = some 5 ∧ s.pm[s.ip + 1]? = some k ∧ k ≠ 7 ∧ s.cfg.outCap = some s.out.length) ∧
    (s.cfg.outCap = none → t.cause ≠ .outputOverflow)

/-- 44_output R130 (empty after LOAD: the spec's own decision D5): a step appends one digit exactly when it completes an
Output, and changes `out` in no other way; so along the run from any state the accumulator's length grows by the number
of completed Outputs, and its earlier digits stay in their places. -/
def Obligations.OutputLengthCountsCompletedOutputs : Prop :=
  (∀ s t : State, step s = .next t →
    (completesOutput s = true → ∃ d : Digit, t.out = s.out ++ [d]) ∧ (completesOutput s = false → t.out = s.out)) ∧
  (∀ (s : State) (n : Nat),
    (stateAt s n).out.length = s.out.length + countSteps completesOutput s n ∧ s.out <+: (stateAt s n).out)

/-! ### The step -/

/-- 40_execute_cycle R85 to R87: where the two cells at ip are the encoding of i and the machine has a step, the step is
i's execution, with nothing around it. -/
def Obligations.StepRunsTheDecodedInstruction : Prop :=
  ∀ (i : Instr) (s : State), Spec.ready s →
    s.pm[s.ip]? = some (encode i).1 → s.pm[s.ip + 1]? = some (encode i).2 → step s = exec i s

/-- 40_execute_cycle R82: ip ≥ L halts, changing nothing but STATE; ip = L counts, as does every larger ip; and no step
halts otherwise. -/
def Obligations.IpPastTheEndHalts : Prop :=
  ∀ s : State, Spec.ready s →
    (s.pm.length ≤ s.ip → step s = .next { s with runState := .halted }) ∧
    (∀ t : State, step s = .next t → t.runState = .halted → s.pm.length ≤ s.ip)

/-- 40_execute_cycle R84, 60_exceptions R143 (the spec's own decision D7): an opcode in the last cell faults, whatever
the opcode is and whatever A is; and no step enters that fault otherwise. -/
def Obligations.OpcodeInTheLastCellFaults : Prop :=
  ∀ s : State, Spec.ready s →
    (s.ip + 1 = s.pm.length → step s = .next (Spec.faulted s .truncatedInstruction)) ∧
    (∀ t : State, s.cause = .none → step s = .next t → t.cause = .truncatedInstruction → s.ip + 1 = s.pm.length)

/-- 40_execute_cycle R81 (the spec's own decision D10): the machine has a step exactly in IDLE and ACTIVE. In HALTED and
FAULTED it has none, and the terminal outcome is named (log entry 5). No step is refused. -/
def Obligations.StepExistsExactlyWhenReady : Prop :=
  ∀ s : State,
    ((∃ t, step s = .next t) ↔ Spec.ready s) ∧
    (step s = .fault .halted ↔ s.runState = .halted) ∧
    (∀ c, step s = .fault (.faulted c) ↔ s.runState = .faulted ∧ s.cause = c) ∧
    (∀ r, step s ≠ .refused r)

/-- 60_exceptions R147, 40_execute_cycle R88 (the order is the spec's own decision D14): the first check that fires
decides how the step ends, and where none fires the instruction completes. -/
def Obligations.FirstFailingCheckDecides : Prop :=
  ∀ s : State, Spec.ready s →
    (s.pm.length ≤ s.ip → step s = .next { s with runState := .halted }) ∧
    (s.ip + 1 = s.pm.length → step s = .next (Spec.faulted s .truncatedInstruction)) ∧
    (∀ op k : ProgCell, s.pm[s.ip]? = some op → s.pm[s.ip + 1]? = some k →
      (Spec.comboOpcode op ∧ k = 7 → step s = .next (Spec.faulted s .decodeError)) ∧
      (op = 5 ∧ k ≠ 7 ∧ s.cfg.outCap = some s.out.length → step s = .next (Spec.faulted s .outputOverflow)) ∧
      (¬ (Spec.comboOpcode op ∧ k = 7) → ¬ (op = 5 ∧ s.cfg.outCap = some s.out.length) →
        ∃ t, step s = .next t ∧ t.runState = .active ∧ t.cause = s.cause))

/-- 60_exceptions R145 (the spec's own decision D9): a step that faults changes STATE and CAUSE and nothing else, its
CAUSE is not NONE, ip stays at the faulting instruction, inside the program, and STEP and RUN return the fault. -/
def Obligations.FaultEntryIsPrecise : Prop :=
  ∀ s t : State, step s = .next t → t.runState = .faulted →
    t = Spec.faulted s t.cause ∧ t.cause ≠ .none ∧ s.ip < s.pm.length ∧
      hostDo .step s = (t, .stepped (.fault t.cause)) ∧
      (∀ n : Nat, hostDo (.run (n + 1)) s = (t, .ran (.fault t.cause)))

/-- 60_exceptions R141: a step enters DecodeError exactly when the opcode's mode is combo (0, 2, 5, 6, 7) and the
operand cell is 7. -/
def Obligations.DecodeErrorExactlyOnComboSeven : Prop :=
  ∀ s t : State, s.cause = .none → step s = .next t →
    (t.cause = .decodeError ↔
      ∃ op : ProgCell, s.pm[s.ip]? = some op ∧ s.pm[s.ip + 1]? = some 7 ∧ Spec.comboOpcode op)

/-- 60_exceptions R142, 40_execute_cycle R83 (3-bit cells: the spec's own decision D2): no step raises UnknownOpcode, so
no run from a state without it reaches it. -/
def Obligations.UnknownOpcodeIsUnreachable : Prop :=
  ∀ s t : State, s.cause ≠ .unknownOpcode → Runs s t → t.cause ≠ .unknownOpcode

/-- 60_exceptions R146 (the spec's own decision D10): a retry of a faulting instruction fails in the same way, whatever
A, B and C are, because a fault depends only on PM, ip and len(out); without one, the faulted machine has no step. -/
def Obligations.RetryFaultsTheSameWay : Prop :=
  ∀ s t : State, step s = .next t → t.runState = .faulted →
    step t = .fault (.faulted t.cause) ∧
    ∀ (a b c : Nat), step { t with a := a, b := b, c := c, runState := .active, cause := .none } =
      .next { t with a := a, b := b, c := c }

/-- 10_state R33 (the layout and the codes are the spec's own decision D8): STATUS is STATE in bits 1..0 and CAUSE in
bits 4..2, with the rule's codes; codes 5 to 7 of CAUSE never appear; at reset STATUS is 0. -/
def Obligations.StatusRegisterLayout : Prop :=
  ∀ s : State,
    s.status.toNat % 4 = (match s.runState with | .idle => 0 | .active => 1 | .halted => 2 | .faulted => 3) ∧
    s.status.toNat / 4 = (match s.cause with
      | .none => 0 | .decodeError => 1 | .unknownOpcode => 2 | .truncatedInstruction => 3 | .outputOverflow => 4) ∧
    s.status.toNat / 4 < 5 ∧ State.reset.status = 0b00000#5

/-- 20_memory R43 for program memory: no step and no host operation changes it, but an accepted LOAD, which writes its
program. That the parameters never change at all is no rule's own sentence: 10_state R20 calls them configuration, not
state, and the field `cfg` that carries them is the model's choice (log entry 2). -/
def Obligations.ProgramMemoryIsReadOnly : Prop :=
  (∀ s t : State, step s = .next t → t.pm = s.pm ∧ t.cfg = s.cfg) ∧
  (∀ (op : HostOp) (s : State), (hostDo op s).1.cfg = s.cfg ∧
    ((hostDo op s).1.pm ≠ s.pm → ∃ prog a b c, op = .load prog a b c ∧ (hostDo op s).2 = .ok ∧
      (hostDo op s).1.pm.map BitVec.toNat = prog))

/-- 10_state R23: the read and write table. Every instruction answers a next state; a register outside its "written by"
entry is unchanged; no instruction has two; and a register outside its "read by" entry has no influence: with any other
value in it, the instruction ends in the same state, but for that register where it was not written. -/
def Obligations.RegistersReadAndWrittenAsTabled : Prop :=
  ∀ (i : Instr) (s : State), ∃ t, exec i s = .next t ∧
    (∀ r, ¬ Spec.writes i r → t.readReg r = s.readReg r) ∧
    (∀ r q, Spec.writes i r → Spec.writes i q → r = q) ∧
    (∀ r x, ¬ Spec.reads i r →
      (Spec.writes i r ∧ t.runState = .active → exec i (Spec.withReg s r x) = .next t) ∧
      (¬ (Spec.writes i r ∧ t.runState = .active) →
        exec i (Spec.withReg s r x) = .next (Spec.withReg t r x)))

/-- 70_reset_and_hazards R175: an instruction that reads the register it writes reads the value from before the step. -/
def Obligations.ReadsComeBeforeTheWrite : Prop :=
  ∀ s : State,
    exec (.divA (.reg .A)) s = .next { s with a := s.a / 2 ^ s.a, ip := s.ip + 2, runState := .active } ∧
    exec (.modulo (.reg .B)) s = .next { s with b := s.b % 8, ip := s.ip + 2, runState := .active } ∧
    exec (.divB (.reg .B)) s = .next { s with b := s.a / 2 ^ s.b, ip := s.ip + 2, runState := .active } ∧
    exec (.divC (.reg .C)) s = .next { s with c := s.a / 2 ^ s.c, ip := s.ip + 2, runState := .active }

/-! ### Runs and invariants -/

/-- 10_state R25 (marked derived in the spec): along every run, no register gets longer than
W0 = max(3, bitlen A0, bitlen B0, bitlen C0); and a machine of any other REG_WIDTH makes the same run. -/
def Obligations.RegistersStayWithinTheirWidth : Prop :=
  ∀ s t : State, Runs s t →
    (∀ r, bitlen (t.readReg r) ≤ max 3 (max (bitlen s.a) (max (bitlen s.b) (bitlen s.c)))) ∧
    (∀ w : Option Nat, Runs { s with cfg := { s.cfg with regWidth := w } } { t with cfg := { t.cfg with regWidth := w } })

/-- The invariant holds at reset (State.reset is LOAD of the empty program with zeros: the model's choice, log
entry 3). -/
def Obligations.ResetStateMeetsTheInvariant : Prop := State.reset.Inv

/-- Every step keeps the invariant of Safety.lean: L even and within PROG_LEN_MAX, registers within REG_WIDTH (10_state
R22, R25), ip ≤ max(L, 7) (R28), out within OUT_CAP (R31), CAUSE ≠ NONE exactly when FAULTED (R33), a halted ip past the
end, a faulted ip inside the program, UnknownOpcode never. -/
def Obligations.StepKeepsTheInvariant : Prop :=
  ∀ s t : State, s.Inv → step s = .next t → t.Inv

/-- Every sequence of host operations keeps the invariant, LOAD, WRITE_REG, STEP and RUN under any fuel among them
(60_exceptions R156 to R158). -/
def Obligations.HostSessionsKeepTheInvariant : Prop :=
  ∀ (ops : List HostOp) (s : State), s.Inv → (hostSession ops s).Inv

/-- 43_control R123: a run that ends, ends in exactly one of two ways. From a machine with the invariant that has a step,
every terminal state t of a run is HALTED with ip ≥ L, CAUSE = NONE and the output as the result, or FAULTED with CAUSE
one of the four faults and no result, ip, A, B, C and out as the instructions before the last step u left them; and two
terminal states of runs from one state are the same. -/
def Obligations.RunEndsInExactlyOneWay : Prop :=
  ∀ s t : State, s.Inv → Spec.ready s → Runs s t → ¬ Spec.ready t →
    ((∃ u, Runs s u ∧ Spec.ready u ∧ t = { u with runState := .halted } ∧ u.pm.length ≤ u.ip ∧ t.cause = .none ∧
        t.result = some u.out) ∨
     (∃ u, Runs s u ∧ Spec.ready u ∧ t = Spec.faulted u t.cause ∧
        t.cause ∈ [.decodeError, .unknownOpcode, .truncatedInstruction, .outputOverflow] ∧
        u.ip < u.pm.length ∧ t.result = none)) ∧
    (∀ u : State, Runs s u → ¬ Spec.ready u → u = t)

/-- 40_execute_cycle R90, R91 (the spec's own decision D27): the executor under fuel agrees with RUN's relation. A run
halts, or faults, exactly when some fuel makes the executor say so, in the same final state; outOfFuel means a run that
has not ended; and more fuel never changes an answer. -/
def Obligations.ExecutorAgreesWithRuns : Prop :=
  ∀ s t : State,
    (HaltsAt s t ↔ ∃ n, runFuel n s = (t, .halted)) ∧
    (FaultsAt s t ↔ ∃ n, runFuel n s = (t, .fault t.cause)) ∧
    (∀ n, runFuel n s = (t, .outOfFuel) → Runs s t ∧ Spec.ready t) ∧
    (∀ (n m : Nat) (o : RunOutcome), runFuel n s = (t, o) → o ≠ .outOfFuel → runFuel (n + m) s = (t, o))

/-- 43_control R124 (the spec's own decision D27): a JumpIfNonzero whose target is its own index, with A ≠ 0, runs for
ever with nothing changed but STATE = ACTIVE: no fuel makes the executor halt or fault. -/
def Obligations.JumpToItselfRunsForever : Prop :=
  ∀ (s : State) (k : ProgCell), Spec.ready s → s.pm[s.ip]? = some 3 → s.pm[s.ip + 1]? = some k → k.toNat = s.ip →
    s.a ≠ 0 → ∀ n : Nat, runFuel (n + 1) s = ({ s with runState := .active }, .outOfFuel)

/-- 43_control R125, 10_state R23: along every run A never increases. -/
def Obligations.RegisterANeverIncreases : Prop := ∀ s t : State, Runs s t → t.a ≤ s.a

/-- 43_control R125 (marked derived in the spec): between two backward jumps with none between them the run takes at
most max(L, 8) steps; and where between every two backward jumps a DivA with a combo value of at least 1 executes, the
run takes at most bitlen(A0) + 1 backward jumps and ends, within the number of steps the two bounds give. -/
def Obligations.RunThatShrinksAEnds : Prop :=
  ∀ s : State,
    (∀ i j : Nat, i < j → backwardJump (stateAt s i) = true → backwardJump (stateAt s j) = true →
      (∀ m, i < m → m < j → backwardJump (stateAt s m) = false) → j - i ≤ max s.pm.length 8) ∧
    ((∀ i j : Nat, i < j → backwardJump (stateAt s i) = true → backwardJump (stateAt s j) = true →
        ∃ m, i < m ∧ m < j ∧ shrinksA (stateAt s m) = true) →
      (∀ n, countSteps backwardJump s n ≤ bitlen s.a + 1) ∧
      (runFuel ((bitlen s.a + 2) * max s.pm.length 8 + 1) s).2 ≠ .outOfFuel)

/-- 40_execute_cycle R84 ("With L even it can happen only after a jump to an odd target"), 60_exceptions R140: with
OUT_CAP = ∞, a machine whose program memory is the encoding of valid instructions with even jump targets only, started
at an even index, never reaches a FAULTED state, whatever its registers hold. -/
def Obligations.ValidProgramWithEvenTargetsNeverFaults : Prop :=
  ∀ (is : List Instr) (s : State), s.pm = encodeProgram is → (∀ i ∈ is, i.wellFormed = true) →
    (∀ k : ProgCell, .jumpIfNonzero k ∈ is → k.toNat % 2 = 0) → s.cfg.outCap = none → s.ip % 2 = 0 →
    s.runState ≠ .faulted → NeverFaults s

/-- 10_state R28 (marked derived in the spec): with a finite PROG_LEN_MAX, every state with the invariant has an ip of
at most ceil(log2(max(PROG_LEN_MAX, 7) + 1)) bits. -/
def Obligations.IpFitsItsFiniteWidth : Prop :=
  ∀ (s : State) (m : Nat), s.Inv → s.cfg.progLenMax = some m → bitlen s.ip ≤ Nat.clog 2 (max m 7 + 1)

/-! ### The host interface -/

/-- 10_state R35, 70_reset_and_hazards R170, 60_exceptions R156 (the spec's own decisions D4, D5, D8, D24): an accepted
LOAD leaves the fresh state, program memory cell for cell, whatever the old state was; and it leaves STATE = IDLE. -/
def Obligations.LoadBuildsAFreshState : Prop :=
  ∀ (prog : List Nat) (a b c : Nat) (s : State), Spec.loadable s.cfg prog a b c →
    ∃ m : Memory, m.map BitVec.toNat = prog ∧
      hostDo (.load prog a b c) s =
        ({ cfg := s.cfg, pm := m, a := a, b := b, c := c, ip := 0, out := [], runState := .idle, cause := .none }, .ok)

/-- 60_exceptions R157 (the spec's own decisions D2, D3, D6, D18): LOAD refuses exactly when one of the four conditions
holds, keeps the old state, and the reason it returns is one that holds. (Which of several, is the model's choice, log
entry 8: not stated here.) -/
def Obligations.LoadRefusesBadArguments : Prop :=
  ∀ (prog : List Nat) (a b c : Nat) (s : State),
    ((∃ r, hostDo (.load prog a b c) s = (s, .loadRefused r)) ↔ ¬ Spec.loadable s.cfg prog a b c) ∧
    (∀ r, (hostDo (.load prog a b c) s).2 = .loadRefused r →
      (r = .oddLength → prog.length % 2 = 1) ∧
      (r = .cellOutOfRange → ∃ x ∈ prog, 7 < x) ∧
      (r = .tooLong → ∃ m, s.cfg.progLenMax = some m ∧ m < prog.length) ∧
      (r = .registerTooWide → ∃ w, s.cfg.regWidth = some w ∧ (2 ^ w ≤ a ∨ 2 ^ w ≤ b ∨ 2 ^ w ≤ c)))

/-- 10_state R24, 60_exceptions R158 (the spec's own decision D25): WRITE_REG writes its register, and nothing else, in
IDLE and for a value that fits; otherwise it is refused and changes nothing. -/
def Obligations.WriteRegOnlyInIdle : Prop :=
  ∀ (r : Reg) (v : Nat) (s : State),
    (s.runState = .idle → Spec.fits s.cfg v → hostDo (.writeReg r v) s = (Spec.withReg s r v, .ok)) ∧
    (¬ (s.runState = .idle ∧ Spec.fits s.cfg v) → hostDo (.writeReg r v) s = (s, .writeRefused))

/-- 60_exceptions R156, 44_output R133 (the spec's own decisions D11, D26): every read is allowed in every state, changes
nothing, and returns what its name says. -/
def Obligations.HostReadsChangeNothing : Prop :=
  ∀ s : State,
    hostDo (.readReg .A) s = (s, .value s.a) ∧ hostDo (.readReg .B) s = (s, .value s.b) ∧
    hostDo (.readReg .C) s = (s, .value s.c) ∧ hostDo .readIp s = (s, .value s.ip) ∧
    hostDo .readStatus s = (s, .status s.status) ∧ hostDo .readOutput s = (s, .digits s.out)

/-- 60_exceptions R156 (the spec's own decision D11): STEP does the machine's step and returns Next, Halted or Fault as
it ended; on a terminal machine it changes nothing and returns the terminal outcome again. -/
def Obligations.HostStepReportsHowItEnded : Prop :=
  ∀ s : State,
    (Spec.ready s → ∃ t, step s = .next t ∧
      (t.runState = .active ∧ hostDo .step s = (t, .stepped .next) ∨
       t.runState = .halted ∧ hostDo .step s = (t, .stepped .halted) ∨
       t.runState = .faulted ∧ hostDo .step s = (t, .stepped (.fault t.cause)))) ∧
    (s.runState = .halted → hostDo .step s = (s, .stepped .halted)) ∧
    (s.runState = .faulted → hostDo .step s = (s, .stepped (.fault s.cause)))

/-- 60_exceptions R146, R155, 40_execute_cycle R90 (the spec's own decisions D10, D23): whatever the host does to a
halted or faulted machine, short of a LOAD, its whole state stays; RUN returns the same outcome again, at once, under
any fuel. -/
def Obligations.OnlyLoadLeavesATerminalState : Prop :=
  ∀ (ops : List HostOp) (s : State), ¬ Spec.ready s → (∀ op ∈ ops, ∀ prog a b c, op ≠ .load prog a b c) →
    hostSession ops s = s ∧
    (s.runState = .halted → ∀ n, hostDo (.run n) (hostSession ops s) = (s, .ran .halted)) ∧
    (s.runState = .faulted → ∀ n, hostDo (.run n) (hostSession ops s) = (s, .ran (.fault s.cause)))

/-! ### Text and the host's fetch word -/

/-- 44_output R134 (the empty case and the character set are the spec's own decision D28): the rendering is the digits
joined by ',', with the rule's example, and it has 2n - 1 characters for n digits. -/
def Obligations.OutputRendersCommaJoined : Prop :=
  render [] = "" ∧ (∀ d : Digit, render [d] = toString d.toNat) ∧
  (∀ (d e : Digit) (rest : List Digit), render (d :: e :: rest) = toString d.toNat ++ "," ++ render (e :: rest)) ∧
  (∀ out : List Digit, (render out).length = 2 * out.length - 1) ∧
  render [4, 6, 3, 5, 6, 3, 5, 2, 1, 0] = "4,6,3,5,6,3,5,2,1,0"

/-- 30_encoding R71 (the spec's own decision D20): a valid instruction's spelling is read back as that instruction, and
a reserved pair has no spelling. -/
def Obligations.SpellingIsReadBack : Prop :=
  ∀ i : Instr,
    (i.wellFormed = true → ∃ t, Instr.spelling i = some t ∧ parseInstr t = some i) ∧
    (i.wellFormed = false → Instr.spelling i = none)

/-- The model's own convention for a program from outside (log entry 4): from every state, with a table word w of 6
bits placed by `withFetchWord`, the very next step runs the instruction that word decodes to. -/
def Obligations.PlacedWordRunsNext : Prop :=
  ∀ (s : State) (w : Nat), w < 64 → ∃ i, decodeTableWord 8 w = some i ∧
    step (s.withFetchWord 8 w) = exec i (s.withFetchWord 8 w) ∧ (s.withFetchWord 8 w).ip = s.ip ∧
    (∀ r, (s.withFetchWord 8 w).readReg r = s.readReg r) ∧ (s.withFetchWord 8 w).out = s.out ∧
    (∀ j, j < s.pm.length → j ≠ s.ip → j ≠ s.ip + 1 → (s.withFetchWord 8 w).pm[j]? = s.pm[j]?)
end

