-- ==== Sys2Proof/Laws/Arith.lean ====
section
/-! SUPPORT. The arithmetic of the machine: bit lengths bound what each operation writes (10_state R25). -/

namespace Sys2Proof.Machine

/-- The bit length is at most W exactly for the values below 2^W. -/
theorem bitlen_le (v W : Nat) : bitlen v ≤ W ↔ v < 2 ^ W := by
  unfold bitlen
  split
  · simp_all
  · rename_i h
    rw [Nat.succ_le_iff, Nat.log2_lt h]

theorem quotient_le (a v : Nat) : quotient a v ≤ a := Nat.shiftRight_le a v

theorem xorNat_lt_two_pow {a b n : Nat} (ha : a < 2 ^ n) (hb : b < 2 ^ n) : xorNat a b < 2 ^ n :=
  Nat.xor_lt_two_pow ha hb

theorem mod8_lt (v : Nat) : mod8 v < 8 := Nat.mod_lt v (by decide)

theorem toDigit_toNat (v : Nat) : (toDigit v).toNat = v % 8 := by
  simp [toDigit, mod8]

end Sys2Proof.Machine
end

