-- ==== Sys2Proof/Laws/Encoding.lean ====
section
/-! SUPPORT. Cells and operands of the encoding. -/

namespace Sys2Proof

theorem Combo.ofCode_code (k : Combo) : Combo.ofCode k.code = k := by
  cases k with
  | lit n => revert n; decide
  | reg r => cases r <;> rfl
  | reserved => rfl

theorem Combo.code_ofCode (k : ProgCell) : (Combo.ofCode k).code = k := by revert k; decide

theorem Combo.ofCode_valid (k : ProgCell) : (Combo.ofCode k).valid = decide (k ≠ 7#3) := by revert k; decide

theorem decodeOpcode_cell (o : Opcode) : decodeOpcode o.cell = o := by cases o <;> rfl

theorem cell_decodeOpcode (op : ProgCell) : (decodeOpcode op).cell = op := by revert op; decide

theorem decodePair_opcode (op k : ProgCell) : (decodePair op k).opcode = decodeOpcode op := by
  unfold decodePair; cases decodeOpcode op <;> rfl

theorem decodePair_operandCell (op k : ProgCell) : (decodePair op k).operandCell = k := by
  unfold decodePair; cases decodeOpcode op <;> simp [Instr.operandCell, Combo.code_ofCode]

@[simp] theorem encodeProgram_length (is : List Instr) : (encodeProgram is).length = 2 * is.length := by
  induction is with
  | nil => rfl
  | cons i rest ih => simp [encodeProgram, ih]; omega

end Sys2Proof
end

