-- ==== Sys2Proof/Laws/State.lean ====
section
/-! SUPPORT. What each state update does to each field, true by rfl: no later proof unfolds a record update. -/

namespace Sys2Proof.Machine

/-! ### writeReg_A -/

@[simp] theorem State.writeReg_A_cfg (s : State) (v : Nat) : (s.writeReg .A v).cfg = s.cfg := rfl
@[simp] theorem State.writeReg_A_pm (s : State) (v : Nat) : (s.writeReg .A v).pm = s.pm := rfl
@[simp] theorem State.writeReg_A_a (s : State) (v : Nat) : (s.writeReg .A v).a = v := rfl
@[simp] theorem State.writeReg_A_b (s : State) (v : Nat) : (s.writeReg .A v).b = s.b := rfl
@[simp] theorem State.writeReg_A_c (s : State) (v : Nat) : (s.writeReg .A v).c = s.c := rfl
@[simp] theorem State.writeReg_A_ip (s : State) (v : Nat) : (s.writeReg .A v).ip = s.ip := rfl
@[simp] theorem State.writeReg_A_out (s : State) (v : Nat) : (s.writeReg .A v).out = s.out := rfl
@[simp] theorem State.writeReg_A_runState (s : State) (v : Nat) : (s.writeReg .A v).runState = s.runState := rfl
@[simp] theorem State.writeReg_A_cause (s : State) (v : Nat) : (s.writeReg .A v).cause = s.cause := rfl

/-! ### writeReg_B -/

@[simp] theorem State.writeReg_B_cfg (s : State) (v : Nat) : (s.writeReg .B v).cfg = s.cfg := rfl
@[simp] theorem State.writeReg_B_pm (s : State) (v : Nat) : (s.writeReg .B v).pm = s.pm := rfl
@[simp] theorem State.writeReg_B_a (s : State) (v : Nat) : (s.writeReg .B v).a = s.a := rfl
@[simp] theorem State.writeReg_B_b (s : State) (v : Nat) : (s.writeReg .B v).b = v := rfl
@[simp] theorem State.writeReg_B_c (s : State) (v : Nat) : (s.writeReg .B v).c = s.c := rfl
@[simp] theorem State.writeReg_B_ip (s : State) (v : Nat) : (s.writeReg .B v).ip = s.ip := rfl
@[simp] theorem State.writeReg_B_out (s : State) (v : Nat) : (s.writeReg .B v).out = s.out := rfl
@[simp] theorem State.writeReg_B_runState (s : State) (v : Nat) : (s.writeReg .B v).runState = s.runState := rfl
@[simp] theorem State.writeReg_B_cause (s : State) (v : Nat) : (s.writeReg .B v).cause = s.cause := rfl

/-! ### writeReg_C -/

@[simp] theorem State.writeReg_C_cfg (s : State) (v : Nat) : (s.writeReg .C v).cfg = s.cfg := rfl
@[simp] theorem State.writeReg_C_pm (s : State) (v : Nat) : (s.writeReg .C v).pm = s.pm := rfl
@[simp] theorem State.writeReg_C_a (s : State) (v : Nat) : (s.writeReg .C v).a = s.a := rfl
@[simp] theorem State.writeReg_C_b (s : State) (v : Nat) : (s.writeReg .C v).b = s.b := rfl
@[simp] theorem State.writeReg_C_c (s : State) (v : Nat) : (s.writeReg .C v).c = v := rfl
@[simp] theorem State.writeReg_C_ip (s : State) (v : Nat) : (s.writeReg .C v).ip = s.ip := rfl
@[simp] theorem State.writeReg_C_out (s : State) (v : Nat) : (s.writeReg .C v).out = s.out := rfl
@[simp] theorem State.writeReg_C_runState (s : State) (v : Nat) : (s.writeReg .C v).runState = s.runState := rfl
@[simp] theorem State.writeReg_C_cause (s : State) (v : Nat) : (s.writeReg .C v).cause = s.cause := rfl

/-! ### setIp -/

@[simp] theorem State.setIp_cfg (s : State) (n : Nat) : (s.setIp n).cfg = s.cfg := rfl
@[simp] theorem State.setIp_pm (s : State) (n : Nat) : (s.setIp n).pm = s.pm := rfl
@[simp] theorem State.setIp_a (s : State) (n : Nat) : (s.setIp n).a = s.a := rfl
@[simp] theorem State.setIp_b (s : State) (n : Nat) : (s.setIp n).b = s.b := rfl
@[simp] theorem State.setIp_c (s : State) (n : Nat) : (s.setIp n).c = s.c := rfl
@[simp] theorem State.setIp_ip (s : State) (n : Nat) : (s.setIp n).ip = n := rfl
@[simp] theorem State.setIp_out (s : State) (n : Nat) : (s.setIp n).out = s.out := rfl
@[simp] theorem State.setIp_runState (s : State) (n : Nat) : (s.setIp n).runState = s.runState := rfl
@[simp] theorem State.setIp_cause (s : State) (n : Nat) : (s.setIp n).cause = s.cause := rfl

/-! ### advance -/

@[simp] theorem State.advance_cfg (s : State) : (s.advance).cfg = s.cfg := rfl
@[simp] theorem State.advance_pm (s : State) : (s.advance).pm = s.pm := rfl
@[simp] theorem State.advance_a (s : State) : (s.advance).a = s.a := rfl
@[simp] theorem State.advance_b (s : State) : (s.advance).b = s.b := rfl
@[simp] theorem State.advance_c (s : State) : (s.advance).c = s.c := rfl
@[simp] theorem State.advance_ip (s : State) : (s.advance).ip = s.ip + 2 := rfl
@[simp] theorem State.advance_out (s : State) : (s.advance).out = s.out := rfl
@[simp] theorem State.advance_runState (s : State) : (s.advance).runState = s.runState := rfl
@[simp] theorem State.advance_cause (s : State) : (s.advance).cause = s.cause := rfl

/-! ### append -/

@[simp] theorem State.append_cfg (s : State) (d : Digit) : (s.append d).cfg = s.cfg := rfl
@[simp] theorem State.append_pm (s : State) (d : Digit) : (s.append d).pm = s.pm := rfl
@[simp] theorem State.append_a (s : State) (d : Digit) : (s.append d).a = s.a := rfl
@[simp] theorem State.append_b (s : State) (d : Digit) : (s.append d).b = s.b := rfl
@[simp] theorem State.append_c (s : State) (d : Digit) : (s.append d).c = s.c := rfl
@[simp] theorem State.append_ip (s : State) (d : Digit) : (s.append d).ip = s.ip := rfl
@[simp] theorem State.append_out (s : State) (d : Digit) : (s.append d).out = s.out ++ [d] := rfl
@[simp] theorem State.append_runState (s : State) (d : Digit) : (s.append d).runState = s.runState := rfl
@[simp] theorem State.append_cause (s : State) (d : Digit) : (s.append d).cause = s.cause := rfl

/-! ### raise -/

@[simp] theorem State.raise_cfg (s : State) (f : Cause) : (s.raise f).cfg = s.cfg := rfl
@[simp] theorem State.raise_pm (s : State) (f : Cause) : (s.raise f).pm = s.pm := rfl
@[simp] theorem State.raise_a (s : State) (f : Cause) : (s.raise f).a = s.a := rfl
@[simp] theorem State.raise_b (s : State) (f : Cause) : (s.raise f).b = s.b := rfl
@[simp] theorem State.raise_c (s : State) (f : Cause) : (s.raise f).c = s.c := rfl
@[simp] theorem State.raise_ip (s : State) (f : Cause) : (s.raise f).ip = s.ip := rfl
@[simp] theorem State.raise_out (s : State) (f : Cause) : (s.raise f).out = s.out := rfl
@[simp] theorem State.raise_runState (s : State) (f : Cause) : (s.raise f).runState = .faulted := rfl
@[simp] theorem State.raise_cause (s : State) (f : Cause) : (s.raise f).cause = f := rfl

/-! ### halt -/

@[simp] theorem State.halt_cfg (s : State) : (s.halt).cfg = s.cfg := rfl
@[simp] theorem State.halt_pm (s : State) : (s.halt).pm = s.pm := rfl
@[simp] theorem State.halt_a (s : State) : (s.halt).a = s.a := rfl
@[simp] theorem State.halt_b (s : State) : (s.halt).b = s.b := rfl
@[simp] theorem State.halt_c (s : State) : (s.halt).c = s.c := rfl
@[simp] theorem State.halt_ip (s : State) : (s.halt).ip = s.ip := rfl
@[simp] theorem State.halt_out (s : State) : (s.halt).out = s.out := rfl
@[simp] theorem State.halt_runState (s : State) : (s.halt).runState = .halted := rfl
@[simp] theorem State.halt_cause (s : State) : (s.halt).cause = s.cause := rfl

/-! ### activate -/

@[simp] theorem State.activate_cfg (s : State) : (s.activate).cfg = s.cfg := rfl
@[simp] theorem State.activate_pm (s : State) : (s.activate).pm = s.pm := rfl
@[simp] theorem State.activate_a (s : State) : (s.activate).a = s.a := rfl
@[simp] theorem State.activate_b (s : State) : (s.activate).b = s.b := rfl
@[simp] theorem State.activate_c (s : State) : (s.activate).c = s.c := rfl
@[simp] theorem State.activate_ip (s : State) : (s.activate).ip = s.ip := rfl
@[simp] theorem State.activate_out (s : State) : (s.activate).out = s.out := rfl
@[simp] theorem State.activate_runState (s : State) : (s.activate).runState = .active := rfl
@[simp] theorem State.activate_cause (s : State) : (s.activate).cause = s.cause := rfl

/-! ### complete -/

@[simp] theorem State.complete_cfg (s : State) : (s.complete).cfg = s.cfg := rfl
@[simp] theorem State.complete_pm (s : State) : (s.complete).pm = s.pm := rfl
@[simp] theorem State.complete_a (s : State) : (s.complete).a = s.a := rfl
@[simp] theorem State.complete_b (s : State) : (s.complete).b = s.b := rfl
@[simp] theorem State.complete_c (s : State) : (s.complete).c = s.c := rfl
@[simp] theorem State.complete_ip (s : State) : (s.complete).ip = s.ip + 2 := rfl
@[simp] theorem State.complete_out (s : State) : (s.complete).out = s.out := rfl
@[simp] theorem State.complete_runState (s : State) : (s.complete).runState = .active := rfl
@[simp] theorem State.complete_cause (s : State) : (s.complete).cause = s.cause := rfl

/-! ### Any register -/

@[simp] theorem State.readReg_A (s : State) : s.readReg .A = s.a := rfl
@[simp] theorem State.readReg_B (s : State) : s.readReg .B = s.b := rfl
@[simp] theorem State.readReg_C (s : State) : s.readReg .C = s.c := rfl
@[simp] theorem State.writeReg_cfg (s : State) (r : Reg) (v : Nat) : (s.writeReg r v).cfg = s.cfg := by cases r <;> rfl
@[simp] theorem State.writeReg_pm (s : State) (r : Reg) (v : Nat) : (s.writeReg r v).pm = s.pm := by cases r <;> rfl
@[simp] theorem State.writeReg_ip (s : State) (r : Reg) (v : Nat) : (s.writeReg r v).ip = s.ip := by cases r <;> rfl
@[simp] theorem State.writeReg_out (s : State) (r : Reg) (v : Nat) : (s.writeReg r v).out = s.out := by cases r <;> rfl
@[simp] theorem State.writeReg_runState (s : State) (r : Reg) (v : Nat) : (s.writeReg r v).runState = s.runState := by cases r <;> rfl
@[simp] theorem State.writeReg_cause (s : State) (r : Reg) (v : Nat) : (s.writeReg r v).cause = s.cause := by cases r <;> rfl
@[simp] theorem State.readReg_setIp (s : State) (n : Nat) (r : Reg) : (s.setIp n).readReg r = s.readReg r := by cases r <;> rfl
@[simp] theorem State.readReg_advance (s : State) (r : Reg) : (s.advance).readReg r = s.readReg r := by cases r <;> rfl
@[simp] theorem State.readReg_append (s : State) (d : Digit) (r : Reg) : (s.append d).readReg r = s.readReg r := by cases r <;> rfl
@[simp] theorem State.readReg_raise (s : State) (f : Cause) (r : Reg) : (s.raise f).readReg r = s.readReg r := by cases r <;> rfl
@[simp] theorem State.readReg_halt (s : State) (r : Reg) : (s.halt).readReg r = s.readReg r := by cases r <;> rfl
@[simp] theorem State.readReg_activate (s : State) (r : Reg) : (s.activate).readReg r = s.readReg r := by cases r <;> rfl
@[simp] theorem State.readReg_complete (s : State) (r : Reg) : (s.complete).readReg r = s.readReg r := by cases r <;> rfl

/-- Reading a register after a write: the written one gives the value, the others keep theirs. -/
theorem State.readReg_writeReg (s : State) (r q : Reg) (v : Nat) :
    (s.writeReg r v).readReg q = if q = r then v else s.readReg q := by
  cases r <;> cases q <;> rfl

@[simp] theorem State.readReg_writeReg_self (s : State) (r : Reg) (v : Nat) : (s.writeReg r v).readReg r = v := by
  cases r <;> rfl

theorem State.readReg_writeReg_of_ne (s : State) {r q : Reg} (v : Nat) (h : q ≠ r) :
    (s.writeReg r v).readReg q = s.readReg q := by
  rw [State.readReg_writeReg, if_neg h]

/-- The last write of a register wins. -/
@[simp] theorem State.writeReg_writeReg (s : State) (r : Reg) (v w : Nat) :
    (s.writeReg r v).writeReg r w = s.writeReg r w := by cases r <;> rfl

/-- Two states with equal fields are equal. -/
theorem State.ext_fields {s t : State} (h1 : s.cfg = t.cfg) (h2 : s.pm = t.pm) (h3 : s.a = t.a) (h4 : s.b = t.b)
    (h5 : s.c = t.c) (h6 : s.ip = t.ip) (h7 : s.out = t.out) (h8 : s.runState = t.runState)
    (h9 : s.cause = t.cause) : s = t := by
  cases s; cases t; simp_all

end Sys2Proof.Machine
end

