-- ==== Sys2Proof/Laws/Operands.lean ====
section
/-! SUPPORT. Operand resolution: when it succeeds, and the one thing a combo instruction does when it does not. -/

namespace Sys2Proof.Machine

@[simp] theorem Combo.resolve_lit (n : Fin 4) (s : State) : Combo.resolve (.lit n) s = .ok n.val := rfl
@[simp] theorem Combo.resolve_reg (r : Reg) (s : State) : Combo.resolve (.reg r) s = .ok (s.readReg r) := rfl
@[simp] theorem Combo.resolve_reserved (s : State) : Combo.resolve .reserved s = .error .decodeError := rfl

/-- Resolution succeeds exactly on the valid operands; the reserved one gives DecodeError. -/
theorem Combo.resolve_cases (k : Combo) (s : State) :
    (k.valid = true ∧ ∃ v, Combo.resolve k s = .ok v) ∨
    (k = .reserved ∧ Combo.resolve k s = .error .decodeError) := by
  cases k with
  | lit n => exact .inl ⟨rfl, n.val, rfl⟩
  | reg r => exact .inl ⟨rfl, s.readReg r, rfl⟩
  | reserved => exact .inr ⟨rfl, rfl⟩

theorem Combo.valid_of_resolve {k : Combo} {s : State} {v : Nat} (h : Combo.resolve k s = .ok v) :
    k.valid = true := by
  cases k <;> first | rfl | simp at h

theorem withCombo_ok {k : Combo} {s : State} {v : Nat} (h : Combo.resolve k s = .ok v)
    (f : Nat → Host.Outcome State Fault Refusal) : withCombo k s f = f v := by
  simp [withCombo, h]

@[simp] theorem withCombo_reserved (s : State) (f : Nat → Host.Outcome State Fault Refusal) :
    withCombo .reserved s f = .next (s.raise .decodeError) := rfl

end Sys2Proof.Machine
end

