-- ==== Sys2Proof/Laws/Exec.lean ====
section
/-! SUPPORT. What each instruction does, and one lemma that says everything an instruction can do. -/

namespace Sys2Proof.Machine

theorem execDivA_ok {k : Combo} {s : State} {v : Nat} (h : Combo.resolve k s = .ok v) :
    execDivA k s = .next (s.writeReg .A (quotient s.a v)).complete := withCombo_ok h _

theorem execDivB_ok {k : Combo} {s : State} {v : Nat} (h : Combo.resolve k s = .ok v) :
    execDivB k s = .next (s.writeReg .B (quotient s.a v)).complete := withCombo_ok h _

theorem execDivC_ok {k : Combo} {s : State} {v : Nat} (h : Combo.resolve k s = .ok v) :
    execDivC k s = .next (s.writeReg .C (quotient s.a v)).complete := withCombo_ok h _

theorem execModulo_ok {k : Combo} {s : State} {v : Nat} (h : Combo.resolve k s = .ok v) :
    execModulo k s = .next (s.writeReg .B (mod8 v)).complete := withCombo_ok h _

theorem execOutput_ok {k : Combo} {s : State} {v : Nat} (h : Combo.resolve k s = .ok v) :
    execOutput k s =
      if s.outFull then .next (s.raise .outputOverflow) else .next (s.append (toDigit v)).complete :=
  withCombo_ok h _

@[simp] theorem execDivA_reserved (s : State) : execDivA .reserved s = .next (s.raise .decodeError) := rfl
@[simp] theorem execDivB_reserved (s : State) : execDivB .reserved s = .next (s.raise .decodeError) := rfl
@[simp] theorem execDivC_reserved (s : State) : execDivC .reserved s = .next (s.raise .decodeError) := rfl
@[simp] theorem execModulo_reserved (s : State) : execModulo .reserved s = .next (s.raise .decodeError) := rfl
@[simp] theorem execOutput_reserved (s : State) : execOutput .reserved s = .next (s.raise .decodeError) := rfl

/-- The register an instruction writes and the value, where it writes one. -/
def regEffect (i : Instr) (s : State) : Option (Reg × Nat) :=
  match i with
  | .divA k => (Combo.resolve k s).toOption.map fun v => (.A, quotient s.a v)
  | .xorLiteral k => some (.B, xorNat s.b k.toNat)
  | .modulo k => (Combo.resolve k s).toOption.map fun v => (.B, mod8 v)
  | .jumpIfNonzero _ => none
  | .xorRegisters _ => some (.B, xorNat s.b s.c)
  | .output _ => none
  | .divB k => (Combo.resolve k s).toOption.map fun v => (.B, quotient s.a v)
  | .divC k => (Combo.resolve k s).toOption.map fun v => (.C, quotient s.a v)

/-- The five ways an instruction ends: DecodeError, a register written, a jump, a digit appended, or OutputOverflow. -/
inductive ExecCase (i : Instr) (s : State) : State → Prop
  | decodeError (h : i.wellFormed = false) : ExecCase i s (s.raise .decodeError)
  | reg (r : Reg) (v : Nat) (hw : i.wellFormed = true) (h : regEffect i s = some (r, v)) :
      ExecCase i s (s.writeReg r v).complete
  | taken (k : ProgCell) (hi : i = .jumpIfNonzero k) (ha : s.a ≠ 0) : ExecCase i s (s.setIp k.toNat).activate
  | notTaken (k : ProgCell) (hi : i = .jumpIfNonzero k) (ha : s.a = 0) : ExecCase i s s.complete
  | output (k : Combo) (v : Nat) (hi : i = .output k) (hk : k.valid = true) (h : Combo.resolve k s = .ok v)
      (hf : s.outFull = false) : ExecCase i s (s.append (toDigit v)).complete
  | overflow (k : Combo) (hi : i = .output k) (hk : k.valid = true) (hf : s.outFull = true) :
      ExecCase i s (s.raise .outputOverflow)

/-- Every instruction answers a next state in every state, and it is one of the cases above. -/
theorem exec_cases (i : Instr) (s : State) : ∃ t, exec i s = .next t ∧ ExecCase i s t := by
  cases i with
  | divA k =>
    obtain ⟨hk, v, h⟩ | ⟨rfl, -⟩ := Combo.resolve_cases k s
    · exact ⟨_, execDivA_ok h, .reg _ _ hk (by simp [regEffect, h, Except.toOption])⟩
    · exact ⟨_, rfl, .decodeError rfl⟩
  | divB k =>
    obtain ⟨hk, v, h⟩ | ⟨rfl, -⟩ := Combo.resolve_cases k s
    · exact ⟨_, execDivB_ok h, .reg _ _ hk (by simp [regEffect, h, Except.toOption])⟩
    · exact ⟨_, rfl, .decodeError rfl⟩
  | divC k =>
    obtain ⟨hk, v, h⟩ | ⟨rfl, -⟩ := Combo.resolve_cases k s
    · exact ⟨_, execDivC_ok h, .reg _ _ hk (by simp [regEffect, h, Except.toOption])⟩
    · exact ⟨_, rfl, .decodeError rfl⟩
  | modulo k =>
    obtain ⟨hk, v, h⟩ | ⟨rfl, -⟩ := Combo.resolve_cases k s
    · exact ⟨_, execModulo_ok h, .reg _ _ hk (by simp [regEffect, h, Except.toOption])⟩
    · exact ⟨_, rfl, .decodeError rfl⟩
  | xorLiteral k => exact ⟨_, rfl, .reg _ _ rfl rfl⟩
  | xorRegisters k => exact ⟨_, rfl, .reg _ _ rfl rfl⟩
  | jumpIfNonzero k =>
    refine ⟨_, rfl, ?_⟩
    by_cases h : s.a = 0
    · rw [if_neg (by simpa using h)]; exact .notTaken k rfl h
    · rw [if_pos (by simpa using h)]; exact .taken k rfl h
  | output k =>
    obtain ⟨hk, v, h⟩ | ⟨rfl, -⟩ := Combo.resolve_cases k s
    · cases hf : s.outFull with
      | false => exact ⟨_, by simp [exec, execOutput_ok h, hf], .output k v rfl hk h hf⟩
      | true => exact ⟨_, by simp [exec, execOutput_ok h, hf], .overflow k rfl hk hf⟩
    · exact ⟨_, rfl, .decodeError rfl⟩

/-- The inversion form of `exec_cases`. -/
theorem ExecCase.of_exec {i : Instr} {s t : State} (h : exec i s = .next t) : ExecCase i s t := by
  obtain ⟨t', h', hc⟩ := exec_cases i s
  rw [h] at h'
  cases h'
  exact hc

/-- A written register's value is no longer than 3 bits or the registers it came from (10_state R25). -/
theorem regEffect_lt {i : Instr} {s : State} {r : Reg} {v W : Nat} (h : regEffect i s = some (r, v)) (hW : 3 ≤ W)
    (hs : ∀ q, s.readReg q < 2 ^ W) : v < 2 ^ W := by
  have h8 : 8 ≤ 2 ^ W := by simpa using Nat.pow_le_pow_right (n := 2) (by decide) hW
  have hA : s.a < 2 ^ W := hs .A
  have hB : s.b < 2 ^ W := hs .B
  have hC : s.c < 2 ^ W := hs .C
  cases i <;> simp only [regEffect, Option.map_eq_some_iff, Option.some.injEq, Prod.mk.injEq, reduceCtorEq] at h
  case divA k => obtain ⟨u, -, -, rfl⟩ := h; exact (quotient_le _ _).trans_lt hA
  case divB k => obtain ⟨u, -, -, rfl⟩ := h; exact (quotient_le _ _).trans_lt hA
  case divC k => obtain ⟨u, -, -, rfl⟩ := h; exact (quotient_le _ _).trans_lt hA
  case modulo k => obtain ⟨u, -, -, rfl⟩ := h; exact (mod8_lt _).trans_le h8
  case xorLiteral k => obtain ⟨-, rfl⟩ := h; exact xorNat_lt_two_pow hB (by omega)
  case xorRegisters k => obtain ⟨-, rfl⟩ := h; exact xorNat_lt_two_pow hB hC

end Sys2Proof.Machine
end

