-- ==== Sys2Proof/Laws/Memory.lean ====
section
/-! SUPPORT. Program memory: what a read answers, what LOAD's memory holds, that every operation that makes a memory
keeps its form, and what fetch answers. -/

namespace Sys2Proof.Machine

theorem State.memRead_eq (s : State) (i : Nat) : s.memRead i = s.pm[i]? := rfl

/-- A read answers no cell exactly from L on (20_memory R48). -/
theorem State.memRead_eq_none (s : State) (i : Nat) : s.memRead i = none ↔ s.pm.length ≤ i := by
  simp [State.memRead]

/-- The reset memory has the memory's form. -/
theorem reset_pm_wf : Memory.wf State.reset.pm := rfl

@[simp] theorem Memory.ofProgram_length (prog : List Nat) : (Memory.ofProgram prog).length = prog.length := by
  simp [Memory.ofProgram]

/-- LOAD's memory has the memory's form when the program's length is even (60_exceptions R157). -/
theorem Memory.ofProgram_wf {prog : List Nat} (h : prog.length % 2 = 0) : Memory.wf (Memory.ofProgram prog) := by
  simpa [Memory.wf] using h

theorem Memory.ofProgram_get (prog : List Nat) (i : Nat) :
    (Memory.ofProgram prog)[i]? = prog[i]?.map (BitVec.ofNat 3 ·) := by
  simp [Memory.ofProgram]

/-- Placing a pair keeps the length where it fits, and otherwise makes room for it. -/
theorem Memory.placePair_length (m : Memory) (i : Nat) (op k : ProgCell) :
    (m.placePair i op k).length = max m.length (i + 2 + i % 2) := by
  simp [Memory.placePair]; omega

theorem Memory.placePair_wf {m : Memory} (i : Nat) (op k : ProgCell) (h : Memory.wf m) :
    Memory.wf (m.placePair i op k) := by
  simp only [Memory.wf] at h ⊢
  rw [Memory.placePair_length]; omega

/-- After placing a pair, its two cells read as placed. -/
theorem Memory.placePair_get (m : Memory) (i : Nat) (op k : ProgCell) :
    (m.placePair i op k)[i]? = some op ∧ (m.placePair i op k)[i + 1]? = some k := by
  have h : i + 2 ≤ (m ++ List.replicate (i + 2 + i % 2 - m.length) 0#3).length := by simp; omega
  constructor
  · rw [Memory.placePair, List.getElem?_set_ne (by omega), List.getElem?_set_self (by omega)]
  · rw [Memory.placePair, List.getElem?_set_self (by simp only [List.length_set]; omega)]

/-- Every other cell of the old memory keeps its value. -/
theorem Memory.placePair_get_of_ne (m : Memory) {i j : Nat} (op k : ProgCell) (hi : j ≠ i) (hk : j ≠ i + 1)
    (hj : j < m.length) : (m.placePair i op k)[j]? = m[j]? := by
  rw [Memory.placePair, List.getElem?_set_ne (by omega), List.getElem?_set_ne (by omega),
    List.getElem?_append_left hj]

/-- Everything fetch can answer: past the end, an opcode with no operand cell, or the decoded pair at ip. -/
theorem fetch_eq (s : State) :
    (s.pm.length ≤ s.ip ∧ fetch s = .pastEnd) ∨
    (s.ip + 1 = s.pm.length ∧ fetch s = .stop .truncatedInstruction) ∨
    (∃ op k, s.pm[s.ip]? = some op ∧ s.pm[s.ip + 1]? = some k ∧ fetch s = .instr (decodePair op k)) := by
  unfold fetch State.memRead
  cases h : s.pm[s.ip]? with
  | none => exact .inl ⟨by simpa using h, rfl⟩
  | some op =>
    have hop : ¬ 7 < op.toNat := by omega
    simp only [hop, if_false]
    have hlt := (List.getElem?_eq_some_iff.1 h).1
    cases h' : s.pm[s.ip + 1]? with
    | none => exact .inr (.inl ⟨by have : s.pm.length ≤ s.ip + 1 := by simpa using h'
                                   omega, rfl⟩)
    | some k => exact .inr (.inr ⟨op, k, rfl, rfl, rfl⟩)

theorem fetch_of_pastEnd {s : State} (h : s.pm.length ≤ s.ip) : fetch s = .pastEnd := by
  have h' : s.pm[s.ip]? = none := by simpa using h
  simp [fetch, State.memRead, h']

theorem fetch_of_last {s : State} (h : s.ip + 1 = s.pm.length) : fetch s = .stop .truncatedInstruction := by
  obtain ⟨h1, -⟩ | ⟨-, h2⟩ | ⟨op, k, -, h3, -⟩ := fetch_eq s
  · omega
  · exact h2
  · have := (List.getElem?_eq_some_iff.1 h3).1
    omega

theorem fetch_of_cells {s : State} {op k : ProgCell} (h1 : s.pm[s.ip]? = some op) (h2 : s.pm[s.ip + 1]? = some k) :
    fetch s = .instr (decodePair op k) := by
  have hop : ¬ 7 < op.toNat := by omega
  simp [fetch, State.memRead, h1, h2, hop]

/-- Fetch reads program memory and ip only. -/
theorem fetch_congr {s t : State} (h1 : s.pm = t.pm) (h2 : s.ip = t.ip) : fetch s = fetch t := by
  simp [fetch, State.memRead, h1, h2]

end Sys2Proof.Machine
end

