-- ==== Sys2Proof/Laws/Step.lean ====
section
/-! SUPPORT. One lemma that says everything a step can do; the later lemmas cite it instead of unfolding `step`. -/

namespace Sys2Proof.Machine

theorem State.enabled_iff (s : State) : s.enabled = true ↔ s.runState = .idle ∨ s.runState = .active := by
  unfold State.enabled; cases s.runState <;> simp

theorem State.terminalFault_none (s : State) : s.terminalFault = none ↔ s.enabled = true := by
  unfold State.terminalFault State.enabled; cases s.runState <;> simp

theorem step_of_terminal {s : State} {f : Fault} (h : s.terminalFault = some f) : step s = .fault f := by
  simp [step, h]

theorem step_of_pastEnd {s : State} (h : s.enabled = true) (hip : s.pm.length ≤ s.ip) : step s = .next s.halt := by
  simp [step, (State.terminalFault_none s).2 h, fetch_of_pastEnd hip]

theorem step_of_last {s : State} (h : s.enabled = true) (hip : s.ip + 1 = s.pm.length) :
    step s = .next (s.raise .truncatedInstruction) := by
  simp [step, (State.terminalFault_none s).2 h, fetch_of_last hip]

theorem step_of_cells {s : State} {op k : ProgCell} (h : s.enabled = true) (h1 : s.pm[s.ip]? = some op)
    (h2 : s.pm[s.ip + 1]? = some k) : step s = exec (decodePair op k) s := by
  simp [step, (State.terminalFault_none s).2 h, fetch_of_cells h1 h2]

/-- How a step that has a transition goes: it halts, it raises TruncatedInstruction, or it runs the pair at ip. -/
inductive StepCase (s : State) : State → Prop
  | halt (hip : s.pm.length ≤ s.ip) : StepCase s s.halt
  | truncated (hip : s.ip + 1 = s.pm.length) : StepCase s (s.raise .truncatedInstruction)
  | instr (op k : ProgCell) (h1 : s.pm[s.ip]? = some op) (h2 : s.pm[s.ip + 1]? = some k) {t : State}
      (hx : exec (decodePair op k) s = .next t) (hc : ExecCase (decodePair op k) s t) : StepCase s t

/-- A machine that is not terminal has a step, and it goes one of the three ways. -/
theorem step_cases {s : State} (h : s.enabled = true) : ∃ t, step s = .next t ∧ StepCase s t := by
  obtain ⟨h1, -⟩ | ⟨h1, -⟩ | ⟨op, k, h1, h2, -⟩ := fetch_eq s
  · exact ⟨_, step_of_pastEnd h h1, .halt h1⟩
  · exact ⟨_, step_of_last h h1, .truncated h1⟩
  · obtain ⟨t, hx, hc⟩ := exec_cases (decodePair op k) s
    exact ⟨t, (step_of_cells h h1 h2).trans hx, .instr op k h1 h2 hx hc⟩

theorem enabled_of_step {s t : State} (h : step s = .next t) : s.enabled = true := by
  cases hf : s.terminalFault with
  | none => exact (State.terminalFault_none s).1 hf
  | some f => rw [step_of_terminal hf] at h; cases h

/-- The inversion form of `step_cases`. -/
theorem StepCase.of_step {s t : State} (h : step s = .next t) : StepCase s t := by
  obtain ⟨t', h', hc⟩ := step_cases (enabled_of_step h)
  rw [h] at h'
  cases h'
  exact hc

/-- A pair at ip is inside the program. -/
theorem ip_lt_of_cells {s : State} {k : ProgCell} (h : s.pm[s.ip + 1]? = some k) : s.ip + 1 < s.pm.length :=
  (List.getElem?_eq_some_iff.1 h).1

/-- `withFetchWord` leaves a machine that has a step and holds the word's pair at ip. -/
theorem withFetchWord_enabled (s : State) (nbits w : Nat) : (s.withFetchWord nbits w).enabled = true := by
  unfold State.withFetchWord State.enabled; cases s.runState <;> simp

end Sys2Proof.Machine
end

