-- ==== Sys2Proof/Laws/Run.lean ====
section
/-! SUPPORT. Runs: the induction over a run packaged once, and the executor's equations. -/

namespace Sys2Proof.Machine

/-- What holds at the start of a run and is kept by every step holds at its end. -/
theorem Runs.keeps {P : State → Prop} (hstep : ∀ s t, P s → step s = .next t → P t) {s t : State} (h : Runs s t)
    (hs : P s) : P t := by
  induction h with
  | refl => exact hs
  | tail _ hst ih => exact hstep _ _ ih hst

/-- A reflexive and transitive relation kept by every step relates the ends of every run. -/
theorem Runs.relates {R : State → State → Prop} (hrefl : ∀ s, R s s) (htrans : ∀ s t u, R s t → R t u → R s u)
    (hstep : ∀ s t, step s = .next t → R s t) {s t : State} (h : Runs s t) : R s t := by
  induction h with
  | refl => exact hrefl _
  | tail _ hst ih => exact htrans _ _ _ ih (hstep _ _ hst)

theorem runFuel_zero (s : State) : runFuel 0 s = (s, runOutcome s) := rfl

theorem runFuel_succ {s t : State} (h : step s = .next t) (n : Nat) : runFuel (n + 1) s = runFuel n t := by
  simp [runFuel, h]

/-- On a terminal machine the executor returns at once (40_execute_cycle R90). -/
theorem runFuel_terminal {s : State} (h : s.enabled = false) (n : Nat) : runFuel n s = (s, runOutcome s) := by
  cases n with
  | zero => rfl
  | succ n =>
    cases hf : s.terminalFault with
    | none => rw [(State.terminalFault_none s).1 hf] at h; cases h
    | some f => simp [runFuel, step_of_terminal hf]

theorem runOutcome_outOfFuel (s : State) : runOutcome s = .outOfFuel ↔ s.enabled = true := by
  unfold runOutcome State.terminalFault State.enabled; cases s.runState <;> simp

/-- The executor answers the outcome of the state it stops in. -/
theorem runFuel_outcome (n : Nat) (s : State) : (runFuel n s).2 = runOutcome (runFuel n s).1 := by
  induction n generalizing s with
  | zero => rfl
  | succ n ih =>
    cases h : s.enabled with
    | false => rw [runFuel_terminal h]
    | true =>
      obtain ⟨t, ht, -⟩ := step_cases h
      rw [runFuel_succ ht]; exact ih t

/-- The executor's state is reached by a run. -/
theorem runFuel_runs (n : Nat) (s : State) : Runs s (runFuel n s).1 := by
  induction n generalizing s with
  | zero => exact .refl
  | succ n ih =>
    cases h : s.enabled with
    | false => rw [runFuel_terminal h]; exact .refl
    | true =>
      obtain ⟨t, ht, -⟩ := step_cases h
      rw [runFuel_succ ht]; exact .head ht (ih t)

/-- Running on from where the executor stopped. -/
theorem runFuel_add (m n : Nat) (s : State) : runFuel (m + n) s = runFuel n (runFuel m s).1 := by
  induction m generalizing s with
  | zero => simp [runFuel_zero]
  | succ m ih =>
    cases h : s.enabled with
    | false => simp [runFuel_terminal h]
    | true =>
      obtain ⟨t, ht, -⟩ := step_cases h
      rw [Nat.succ_add, runFuel_succ ht, runFuel_succ ht]; exact ih t

theorem stateAt_zero (s : State) : stateAt s 0 = s := rfl

/-- The next state of the run is one step on, while the machine has a step. -/
theorem step_stateAt {s : State} {n : Nat} (h : (stateAt s n).enabled = true) :
    step (stateAt s n) = .next (stateAt s (n + 1)) := by
  obtain ⟨t, ht, -⟩ := step_cases h
  have : stateAt s (n + 1) = t := by
    rw [stateAt, runFuel_add n 1 s, show runFuel 1 (runFuel n s).1 = runFuel 0 t from runFuel_succ ht 0]; rfl
  rw [ht, this]

/-- On a terminal machine the run stays where it is. -/
theorem stateAt_succ_terminal {s : State} {n : Nat} (h : (stateAt s n).enabled = false) :
    stateAt s (n + 1) = stateAt s n := by
  have h1 := runFuel_terminal h 1
  rw [stateAt, runFuel_add n 1 s]
  exact Eq.trans (congrArg (fun p => p.1) h1) rfl

/-- Counting one step further. -/
theorem countSteps_succ (p : State → Bool) (s : State) (n : Nat) :
    countSteps p s (n + 1) = countSteps p s n + if p (stateAt s n) then 1 else 0 := by
  unfold countSteps
  rw [List.range_succ, List.filter_append, List.length_append]
  cases h : p (stateAt s n) <;> simp [h]

/-- An instruction is next exactly when the machine has a step and a pair of cells stands at ip. -/
theorem nextInstr_eq_some (s : State) (i : Instr) :
    nextInstr s = some i ↔
      s.enabled = true ∧ ∃ op k, s.pm[s.ip]? = some op ∧ s.pm[s.ip + 1]? = some k ∧ i = decodePair op k := by
  unfold nextInstr
  cases hf : s.terminalFault with
  | some f =>
    have : ¬ s.enabled = true := fun h => by rw [(State.terminalFault_none s).2 h] at hf; cases hf
    simp [this]
  | none =>
    have he := (State.terminalFault_none s).1 hf
    obtain ⟨h1, h2⟩ | ⟨h1, h2⟩ | ⟨op, k, h1, h2, h3⟩ := fetch_eq s
    · have : s.pm[s.ip]? = none := by simpa using h1
      simp [h2, this]
    · have : s.pm[s.ip + 1]? = none := by simp; omega
      simp [h2, this]
    · simp [h3, he, h1, h2, eq_comm]

end Sys2Proof.Machine
end

