-- ==== Sys2Proof/Laws/Host.lean ====
section
/-! SUPPORT. The host operations: what each answers. -/

namespace Sys2Proof.Machine

/-- LOAD's checks pass exactly when none of the four conditions of 60_exceptions R157 holds. -/
theorem loadCheck_none (cfg : Config) (prog : List Nat) (a b c : Nat) :
    loadCheck cfg prog a b c = none ↔
      prog.length % 2 = 0 ∧ (∀ x ∈ prog, x ≤ 7) ∧ Config.fitsProg cfg prog.length = true ∧
        Config.fitsReg cfg a = true ∧ Config.fitsReg cfg b = true ∧ Config.fitsReg cfg c = true := by
  unfold loadCheck
  constructor
  · intro h
    split_ifs at h with h1 h2 h3 h4
    simp_all
  · rintro ⟨h1, h2, h3, h4, h5, h6⟩
    have : prog.any (fun x => decide (7 < x)) = false := by simpa using h2
    simp [h1, this, h3, h4, h5, h6]

theorem hostLoad_ok {s : State} {prog : List Nat} {a b c : Nat} (h : loadCheck s.cfg prog a b c = none) :
    hostLoad prog a b c s = (State.fresh s.cfg (Memory.ofProgram prog) a b c, .ok) := by
  simp [hostLoad, h]

theorem hostLoad_refused {s : State} {prog : List Nat} {a b c : Nat} {r : LoadRefusal}
    (h : loadCheck s.cfg prog a b c = some r) : hostLoad prog a b c s = (s, .loadRefused r) := by
  simp [hostLoad, h]

/-- STEP on a machine that has a step. -/
theorem hostStep_enabled {s t : State} (h : step s = .next t) : hostStep s = (t, .stepped (stepOutcome t)) := by
  simp [hostStep, h]

/-- STEP on a terminal machine changes nothing and reports its outcome again (60_exceptions R156). -/
theorem hostStep_terminal {s : State} (h : s.enabled = false) : hostStep s = (s, .stepped (stepOutcome s)) := by
  cases hf : s.terminalFault with
  | none => rw [(State.terminalFault_none s).1 hf] at h; cases h
  | some f => simp [hostStep, step_of_terminal hf]

/-- Reset is LOAD of the empty program with zeros (notes/assumptions/3.md). -/
theorem reset_eq_fresh : State.reset = State.fresh Config.unbounded [] 0 0 0 := rfl

end Sys2Proof.Machine
end

