-- ==== Sys2Proof/Laws/PerInstr.lean ====
section
/-! SUPPORT. The statements about every instruction as syntax, one lemma per constructor. -/

namespace Sys2Proof.Laws.ReservedPairs

/-- An instruction is ill-formed exactly when its opcode's mode is combo and its operand cell is 7
(30_encoding R62, R67). -/
def Statement (i : Instr) : Prop :=
  i.wellFormed = false ↔ (decodeOpcode (encode i).1).mode = .combo ∧ (encode i).2 = 7#3

/-- The combo operands: only the reserved one has the cell 7. -/
theorem code_eq_seven (k : Combo) : k.valid = false ↔ k.code = 7#3 := by
  cases k with
  | lit n => revert n; decide
  | reg r => cases r <;> decide
  | reserved => decide

theorem divA (k : Combo) : Statement (.divA k) := by
  simp [Statement, Instr.wellFormed, encode, Instr.opcode, Instr.operandCell, decodeOpcode_cell, Opcode.mode, code_eq_seven]

theorem xorLiteral (k : ProgCell) : Statement (.xorLiteral k) := by
  simp [Statement, Instr.wellFormed, encode, Instr.opcode, decodeOpcode_cell, Opcode.mode]

theorem modulo (k : Combo) : Statement (.modulo k) := by
  simp [Statement, Instr.wellFormed, encode, Instr.opcode, Instr.operandCell, decodeOpcode_cell, Opcode.mode, code_eq_seven]

theorem jumpIfNonzero (k : ProgCell) : Statement (.jumpIfNonzero k) := by
  simp [Statement, Instr.wellFormed, encode, Instr.opcode, decodeOpcode_cell, Opcode.mode]

theorem xorRegisters (k : ProgCell) : Statement (.xorRegisters k) := by
  simp [Statement, Instr.wellFormed, encode, Instr.opcode, decodeOpcode_cell, Opcode.mode]

theorem output (k : Combo) : Statement (.output k) := by
  simp [Statement, Instr.wellFormed, encode, Instr.opcode, Instr.operandCell, decodeOpcode_cell, Opcode.mode, code_eq_seven]

theorem divB (k : Combo) : Statement (.divB k) := by
  simp [Statement, Instr.wellFormed, encode, Instr.opcode, Instr.operandCell, decodeOpcode_cell, Opcode.mode, code_eq_seven]

theorem divC (k : Combo) : Statement (.divC k) := by
  simp [Statement, Instr.wellFormed, encode, Instr.opcode, Instr.operandCell, decodeOpcode_cell, Opcode.mode, code_eq_seven]

end Sys2Proof.Laws.ReservedPairs
end

