-- ==== Sys2Proof/Tests/Slice0.lean ====
section
/-! SUPPORT. Tests of the model, each expected value from spec/95_test_vectors.md (named by its id) or worked out by hand
from a rule (named by it); and, for every obligation with hypotheses, a theorem that concrete states and operands meet
them, clause by clause. -/

namespace Sys2Proof.Tests

open Sys2Proof Sys2Proof.Machine

/-- A machine just loaded with program `pm` and registers a, b, c, its ip moved to `ip`. -/
def mk (pm : List Nat) (a b c : Nat) (ip : Nat := 0) (out : List Digit := []) (cap : Option Nat := none) : State :=
  { State.fresh { Config.unbounded with outCap := cap } (Memory.ofProgram pm) a b c with ip := ip, out := out }

/-- The state after one step, where there is one. -/
def after (s : State) : Option State :=
  match step s with
  | .next t => some t
  | .fault _ => none
  | .refused _ => none

/-- A, B, C and ip. -/
def regs (s : State) : Nat × Nat × Nat × Nat := (s.a, s.b, s.c, s.ip)

/-! ### WellFormed refuses every ill-formed term (30_encoding R67) -/

theorem test_wf_divA_reserved : (Instr.divA .reserved).wellFormed = false := by decide
theorem test_wf_modulo_reserved : (Instr.modulo .reserved).wellFormed = false := by decide
theorem test_wf_output_reserved : (Instr.output .reserved).wellFormed = false := by decide
theorem test_wf_divB_reserved : (Instr.divB .reserved).wellFormed = false := by decide
theorem test_wf_divC_reserved : (Instr.divC .reserved).wellFormed = false := by decide
theorem test_wf_literal_seven :
    (Instr.xorLiteral 7).wellFormed ∧ (Instr.jumpIfNonzero 7).wellFormed ∧ (Instr.xorRegisters 7).wellFormed := by
  decide
/-- 00_scope R6: a finite REG_WIDTH below 3 is no configuration. -/
theorem test_wf_config_two_bits : ({ Config.unbounded with regWidth := some 2 } : Config).wf = false := by decide

/-! ### Decoding, each word in its bits from 30_encoding R61 and R66 -/

theorem test_decode_divA : decodeTableWord 8 0b000110 = some (.divA (.reg .C)) := by decide
theorem test_decode_xorLiteral : decodeTableWord 8 0b001011 = some (.xorLiteral 3) := by decide
theorem test_decode_modulo : decodeTableWord 8 0b010010 = some (.modulo (.lit 2)) := by decide
theorem test_decode_jumpIfNonzero : decodeTableWord 8 0b011111 = some (.jumpIfNonzero 7) := by decide
theorem test_decode_xorRegisters : decodeTableWord 8 0b100000 = some (.xorRegisters 0) := by decide
theorem test_decode_output : decodeTableWord 8 0b101100 = some (.output (.reg .A)) := by decide
theorem test_decode_divB : decodeTableWord 8 0b110000 = some (.divB (.lit 0)) := by decide
theorem test_decode_divC : decodeTableWord 8 0b111101 = some (.divC (.reg .B)) := by decide
/-- 30_encoding R68: an opcode above 7 is no instruction. -/
theorem test_decode_wide_word : decodeTableWord 8 0b1000000 = none := by decide
/-- 30_encoding R61: the encoder's cells, opcode first. -/
theorem test_encode_divC : encode (.divC (.reg .B)) = (7, 5) := by decide

/-! ### One step of each instruction -/

/-- T-DIV-1. -/
theorem test_divA : (after (mk [0, 1] 729 0 0)).map regs = some (364, 0, 0, 2) := by decide
/-- T-DIV-8. -/
theorem test_divA_wide : (after (mk [0, 5] (2 ^ 70) 3 0)).map regs = some (2 ^ 67, 3, 0, 2) := by decide
/-- T-DIV-2: combo 0 copies A. -/
theorem test_divB_zero : (after (mk [6, 0] 729 5 0)).map regs = some (729, 729, 0, 2) := by decide
/-- T-DIV-17: reads B before writing B. -/
theorem test_divB_self : (after (mk [6, 5] 1000 4 0)).map regs = some (1000, 62, 0, 2) := by decide
/-- T-DIV-3: combo 0 copies A. -/
theorem test_divC_zero : (after (mk [7, 0] 729 0 9)).map regs = some (729, 0, 729, 2) := by decide
/-- T-DIV-16: reads C before writing C. -/
theorem test_divC_self : (after (mk [7, 6] 64 0 2)).map regs = some (64, 0, 16, 2) := by decide
/-- T-BIT-1. -/
theorem test_xorLiteral : (after (mk [1, 7] 0 10 0)).map regs = some (0, 13, 0, 2) := by decide
/-- T-BIT-3: high bits kept. -/
theorem test_xorLiteral_high : (after (mk [1, 3] 0 (2 ^ 40 + 5) 0)).map regs = some (0, 1099511627782, 0, 2) := by decide
/-- T-BIT-5. -/
theorem test_modulo : (after (mk [2, 4] 729 0 0)).map regs = some (729, 1, 0, 2) := by decide
/-- T-BIT-7. -/
theorem test_modulo_self : (after (mk [2, 5] 0 (2 ^ 50 + 13) 0)).map regs = some (0, 5, 0, 2) := by decide
/-- T-BIT-17. -/
theorem test_xorRegisters : (after (mk [4, 0] 0 254 253)).map regs = some (0, 3, 253, 2) := by decide
/-- T-BIT-13: the ignored operand. -/
theorem test_xorRegisters_seven : (after (mk [4, 7] 0 5 3)).map regs = some (0, 6, 3, 2) := by decide
/-- T-CTL-2. -/
theorem test_jump_taken : (after (mk [0, 0, 0, 0, 3, 0] 1 0 0 4)).map regs = some (1, 0, 0, 0) := by decide
/-- T-CTL-8. -/
theorem test_jump_not_taken : (after (mk [0, 0, 0, 0, 3, 4] 0 0 0 4)).map regs = some (0, 0, 0, 6) := by decide
/-- T-OUT-4: appends at the end. -/
theorem test_output : (after (mk [5, 5] 0 (2 ^ 60 + 7) 0 0 [1])).map (·.out) = some [1, 7] := by decide
/-- T-OUT-7: DecodeError comes before OutputOverflow. -/
theorem test_output_seven_full :
    (after (mk [5, 7] 3 0 0 0 [] (some 0))).map (fun t => (t.cause, t.runState, t.ip, t.out)) =
      some (.decodeError, .faulted, 0, []) := by decide

/-! ### Halting and faults -/

/-- T-DIV-11: nothing but STATUS changes; CAUSE 1 and STATE 3 make STATUS 0b00111. -/
theorem test_reserved :
    (after (mk [0, 7] 729 1 2)).map (fun t => (regs t, t.status)) = some ((729, 1, 2, 0), 0b00111#5) := by decide
/-- T-OUT-10. -/
theorem test_overflow : (after (mk [5, 0] 3 0 0 0 [] (some 0))).map (fun t => (t.cause, t.out)) =
    some (.outputOverflow, []) := by decide
/-- T-CTL-4, second step. -/
theorem test_truncated : (after (mk [3, 1] 1 0 0 1)).map (fun t => (t.cause, t.ip)) =
    some (.truncatedInstruction, 1) := by decide
/-- T-CYC-1: the empty program halts at once. -/
theorem test_empty_program : after (mk [] 5 0 0) = some { mk [] 5 0 0 with runState := .halted } := by decide
/-- T-CYC-3: no step from HALTED. -/
theorem test_halted_again : after { mk [] 5 0 0 with runState := .halted } = none := by decide
/-- P4a, second step: an odd index runs the pair (5, 5). -/
theorem test_odd_ip : (after (mk [3, 3, 0, 5, 5, 4] 9 2 0 3)).map (fun t => (t.out, t.ip)) = some ([2], 5) := by decide
/-- P7 with A = 1: fuel 3 runs out, which is no halt. -/
theorem test_self_loop : (runFuel 3 (mk [3, 0] 1 0 0)).2 = .outOfFuel := by decide

/-! ### The host interface and text -/

/-- T-HOST-1, T-HOST-2. -/
theorem test_load_refused :
    (hostDo (.load [0] 1 0 0) State.reset).2 = .loadRefused .oddLength ∧
    (hostDo (.load [8, 0] 1 0 0) State.reset).2 = .loadRefused .cellOutOfRange := by decide
/-- T-HOST-3, T-HOST-4. -/
theorem test_load_limits :
    (hostDo (.load [0, 1, 5, 4] 1 0 0) { State.reset with cfg := { Config.unbounded with progLenMax := some 2 } }).2 =
      .loadRefused .tooLong ∧
    (hostDo (.load [5, 4] 256 0 0) { State.reset with cfg := { Config.unbounded with regWidth := some 8 } }).2 =
      .loadRefused .registerTooWide ∧
    (hostDo (.load [5, 4] 255 0 0) { State.reset with cfg := { Config.unbounded with regWidth := some 8 } }).2 = .ok := by
  decide
/-- T-HOST-5, T-HOST-7. -/
theorem test_write_reg :
    (hostDo (.writeReg .A 7) (mk [5, 4] 1 0 0)).1.a = 7 ∧
    hostDo (.writeReg .B 1) { mk [] 5 0 0 with runState := .halted } =
      ({ mk [] 5 0 0 with runState := .halted }, .writeRefused) := by decide
/-- T-OUT-8, T-OUT-9. -/
theorem test_render : render [] = "" ∧ render [0, 3, 5] = "0,3,5" := by decide
/-- 30_encoding R71 and V1's assembly. -/
theorem test_spelling : Instr.spelling (.output (.reg .A)) = some "Output A" ∧
    parseInstr "JumpIfNonzero 0" = some (.jumpIfNonzero 0) ∧ Instr.spelling (.divC .reserved) = none := by decide
/-- V1's second instruction, placed from outside at reset: step runs it. -/
theorem test_placed_word : (after (State.reset.withFetchWord 8 0o54)).map (fun t => (t.out, t.ip)) = some ([0], 2) := by
  decide

/-! ### Witnesses: concrete states and operands that meet the hypotheses of each obligation -/

/-- The opcode clauses meet each of the eight opcodes, at the reserved combo cell and at a register's. -/
theorem witness_OpcodeFixesTheOperandMode :
    (∀ op : ProgCell, (op = 1 ∨ op = 3) ∨ Spec.comboOpcode op ∨ op = 4) ∧ Combo.ofCode 7 = .reserved ∧
    Combo.ofCode 6 = .reg .C ∧ decodePair 0 6 ≠ decodePair 0 0 := by decide

theorem witness_RawCellsAreRejectedByName :
    decode [8, 0] = .error (.unknownOpcode 8) ∧ decode [7] = .error .truncated ∧
    decode [7, 8] = .error (.operandOutOfRange 8) := by decide

theorem witness_DecodeOfEncodedProgramIsTheProgram :
    decodeProgram [7, 7, 0, 1] = some [.divC .reserved, .divA (.lit 1)] := by decide

theorem witness_EncodedProgramRunsItsInstructions :
    Spec.ready (mk [0, 1, 5, 4] 9 0 0 2) ∧
    (mk [0, 1, 5, 4] 9 0 0 2).pm = encodeProgram [.divA (.lit 1), .output (.reg .A)] ∧
    [Instr.divA (.lit 1), .output (.reg .A)][1]? = some (.output (.reg .A)) ∧ (mk [0, 1, 5, 4] 9 0 0 2).ip = 2 * 1 ∧
    2 * [Instr.divA (.lit 1), .output (.reg .A)].length ≤ (mk [0, 1, 5, 4] 9 0 0 4).ip := by decide

theorem witness_QuotientIsFloorOfDivision : bitlen 7 ≤ 3 := by decide

/-- For each of the eight opcodes: the opcode in the last cell. -/
theorem witness_truncation : ∀ op < 8, ∀ s, s = mk [0, op] 1 0 0 1 →
    Spec.ready s ∧ s.pm[s.ip]? = some (BitVec.ofNat 3 op) ∧ s.ip + 1 = s.pm.length := by
  rintro op - s rfl
  exact ⟨.inl rfl, rfl, rfl⟩

/-- The valid combo cells at the ends of their range, for DivA, DivB, DivC, Modulo and Output. -/
theorem witness_combo_cells : (0 : ProgCell) ≠ 7 ∧ (6 : ProgCell) ≠ 7 ∧ (3 : ProgCell).toNat ≤ 3 := by decide

theorem witness_ComboValueZeroCopiesA :
    Combo.resolve (.lit 0) (mk [] 5 1 2) = .ok 0 ∧ Combo.resolve (.reg .A) (mk [] 0 1 2) = .ok 0 ∧
    Combo.resolve (.reg .C) (mk [] 5 1 0) = .ok 0 := ⟨rfl, rfl, rfl⟩

theorem witness_XorWorksBitByBit : xorNat 2024 7 / 8 = 2024 / 8 ∧ 7 ≤ 7 := by decide

theorem witness_XorLiteralFlipsLowBitsOfB : (mk [] 0 0 0).b = 0 ∧ (0 : ProgCell) = 0 ∧ (7 : ProgCell) = 7 := by decide

theorem witness_XorRegistersXorsBWithC : (mk [] 0 9 9).b = (mk [] 0 9 9).c ∧ (mk [] 0 9 0).c = 0 := by decide

theorem witness_JumpIfNonzeroSetsIp :
    (mk [3, 2] 1 0 0).a ≠ 0 ∧ exec (.jumpIfNonzero 2) (mk [3, 2] 1 0 0) = .next { mk [3, 2] 1 0 0 2 with runState := .active } ∧
    (mk [3, 2] 1 0 0).pm.length ≤ (2 : ProgCell).toNat ∧ (1 : ProgCell).toNat + 1 = (mk [3, 1] 1 0 0).pm.length :=
  ⟨by decide, rfl, by decide, by decide⟩

theorem witness_OtherInstructionsAdvanceByTwo :
    ∃ t, step (mk [3, 0] 0 0 0) = .next t ∧ (mk [3, 0] 0 0 0).pm[0]? = some 3 ∧ (mk [3, 0] 0 0 0).pm[1]? = some 0 ∧
      (mk [3, 0] 0 0 0).a = 0 ∧ t.runState = .active ∧ t.ip = t.pm.length := ⟨_, rfl, by decide⟩

theorem witness_OnlyTakenJumpRedirects :
    ∃ t, step (mk [3, 7] 1 0 0) = .next t ∧ t.runState = .active ∧ t.ip ≠ (mk [3, 7] 1 0 0).ip + 2 := ⟨_, rfl, by decide⟩

theorem witness_OddIpPersistsUntilAJump :
    (∃ t, step (mk [0, 3, 4, 0] 1 0 0 1) = .next t ∧ Spec.ready (mk [0, 3, 4, 0] 1 0 0 1) ∧
      (mk [0, 3, 4, 0] 1 0 0 1).pm[1]? = some 3 ∧ (mk [0, 3, 4, 0] 1 0 0 1).pm[2]? = some 4 ∧
      (mk [0, 3, 4, 0] 1 0 0 1).a ≠ 0 ∧ (mk [0, 3, 4, 0] 1 0 0 1).ip % 2 = 1 ∧ t.ip % 2 = 0) := ⟨_, rfl, by decide⟩

theorem witness_OutputAppendsOneDigit :
    (mk [5, 0] 0 0 0 0 [1] (some 2)).cfg.outCap ≠ some (mk [5, 0] 0 0 0 0 [1] (some 2)).out.length ∧
    (mk [5, 0] 0 0 0 0 [1] (some 1)).cfg.outCap = some (mk [5, 0] 0 0 0 0 [1] (some 1)).out.length := by decide

theorem witness_OverflowExactlyWhenFull :
    (mk [5, 0] 0 0 0 0 [1] (some 1)).cause = .none ∧
    (∃ t, step (mk [5, 0] 0 0 0 0 [1] (some 1)) = .next t ∧ t.cause = .outputOverflow) ∧
    (∃ t, step (mk [5, 0] 0 0 0) = .next t ∧ (mk [5, 0] 0 0 0).cfg.outCap = none) :=
  ⟨rfl, ⟨_, rfl, rfl⟩, ⟨_, rfl, rfl⟩⟩

theorem witness_OutputLengthCountsCompletedOutputs :
    (∃ t, step (mk [5, 6] 0 0 0) = .next t ∧ completesOutput (mk [5, 6] 0 0 0) = true) ∧
    (∃ t, step (mk [5, 7] 0 0 0) = .next t ∧ completesOutput (mk [5, 7] 0 0 0) = false) := ⟨⟨_, rfl, by decide⟩, ⟨_, rfl, by decide⟩⟩

theorem witness_StepRunsTheDecodedInstruction :
    Spec.ready (mk [4, 7] 0 5 3) ∧ (mk [4, 7] 0 5 3).pm[0]? = some (encode (.xorRegisters 7)).1 ∧
    (mk [4, 7] 0 5 3).pm[1]? = some (encode (.xorRegisters 7)).2 := by decide

theorem witness_IpPastTheEndHalts :
    Spec.ready (mk [4, 7] 0 5 3 2) ∧ (mk [4, 7] 0 5 3 2).pm.length ≤ (mk [4, 7] 0 5 3 2).ip ∧
    ∃ t, step (mk [4, 7] 0 5 3 2) = .next t ∧ t.runState = .halted := ⟨by decide, by decide, _, rfl, rfl⟩

theorem witness_OpcodeInTheLastCellFaults :
    (mk [4, 7] 0 5 3 1).cause = .none ∧ ∃ t, step (mk [4, 7] 0 5 3 1) = .next t ∧ t.cause = .truncatedInstruction :=
  ⟨rfl, _, rfl, rfl⟩

theorem witness_FirstFailingCheckDecides :
    Spec.ready (mk [5, 7] 0 0 0 0 [] (some 0)) ∧ Spec.comboOpcode 5 ∧
    (mk [5, 6] 0 0 0 0 [] (some 0)).cfg.outCap = some (mk [5, 6] 0 0 0 0 [] (some 0)).out.length ∧
    ¬ (Spec.comboOpcode 3 ∧ (7 : ProgCell) = 7) := by decide

theorem witness_FaultEntryIsPrecise :
    ∃ t, step (mk [6, 7] 729 1 2) = .next t ∧ t.runState = .faulted := ⟨_, rfl, rfl⟩

theorem witness_DecodeErrorExactlyOnComboSeven :
    (mk [2, 7] 0 0 0).cause = .none ∧ ∃ t, step (mk [2, 7] 0 0 0) = .next t ∧ t.cause = .decodeError := ⟨rfl, _, rfl, rfl⟩

theorem witness_UnknownOpcodeIsUnreachable :
    (mk [7, 7] 0 0 0).cause ≠ .unknownOpcode ∧ ∃ t, Runs (mk [7, 7] 0 0 0) t ∧ t.runState = .faulted :=
  ⟨by decide, _, .single (by unfold StepsTo; rfl), rfl⟩

/-- A fault whose retry depends on the accumulator only. -/
theorem witness_RetryFaultsTheSameWay :
    ∃ t, step (mk [5, 4] 9 0 0 0 [1] (some 1)) = .next t ∧ t.runState = .faulted := ⟨_, rfl, rfl⟩

theorem witness_ProgramMemoryIsReadOnly :
    (∃ t, step (mk [1, 5] 9 0 0) = .next t) ∧ (hostDo (.load [5, 4] 1 0 0) (mk [1, 5] 9 0 0)).1.pm ≠ (mk [1, 5] 9 0 0).pm :=
  ⟨⟨_, rfl⟩, by decide⟩

/-- DivC with a literal operand does not read C but writes it; XorLiteral neither reads nor writes A. -/
theorem witness_RegistersReadAndWrittenAsTabled :
    ¬ Spec.reads (.divC (.lit 1)) .C ∧ Spec.writes (.divC (.lit 1)) .C ∧
    ¬ Spec.reads (.xorLiteral 1) .A ∧ ¬ Spec.writes (.xorLiteral 1) .A :=
  ⟨by simp [Spec.reads], rfl, by simp [Spec.reads], by simp [Spec.writes]⟩

theorem witness_run : ∃ t, Runs (mk [4, 0] 0 5 3) t ∧ t.b = 6 := ⟨_, .single (by unfold StepsTo; rfl), rfl⟩

/-- The invariant holds of a loaded machine with every parameter finite. -/
theorem inv_loaded : (State.fresh ⟨some 8, some 4, some 1⟩ (Memory.ofProgram [5, 4]) 255 0 7).Inv where
  cfg_wf := rfl
  pm_wf := rfl
  pm_fits := rfl
  regs_fit := by intro r; cases r <;> decide
  ip_le := by decide
  out_fits := by decide
  cause_iff := by decide
  idle_fresh := fun _ => ⟨rfl, rfl⟩
  halted_past := by decide
  faulted_inside := by decide
  cause_known := by decide

theorem witness_StepKeepsTheInvariant :
    ∃ s t : State, s.Inv ∧ step s = .next t ∧ t.out = [7] := ⟨_, _, inv_loaded, rfl, rfl⟩

theorem witness_HostSessionsKeepTheInvariant : ∃ s : State, s.Inv ∧
    (hostSession [.writeReg .A 3, .step, .load [5, 4] 1 0 0, .run 2] s).runState = .halted :=
  ⟨_, inv_loaded, by decide⟩

/-- A run from a state with the invariant that halts, and one that faults. -/
theorem witness_RunEndsInExactlyOneWay :
    (∃ s t : State, s.Inv ∧ Spec.ready s ∧ Runs s t ∧ ¬ Spec.ready t ∧ t.runState = .halted) ∧
    (∃ s t : State, s.Inv ∧ Spec.ready s ∧ Runs s t ∧ ¬ Spec.ready t ∧ t.runState = .faulted) :=
  ⟨⟨_, _, inv_loaded, by decide, runFuel_runs 2 _, by decide, by decide⟩,
   ⟨{ State.fresh ⟨some 8, some 4, some 0⟩ (Memory.ofProgram [5, 4]) 255 0 7 with out := [] }, _,
    { inv_loaded with out_fits := by decide }, by decide, runFuel_runs 2 _, by decide, by decide⟩⟩

theorem witness_ExecutorAgreesWithRuns :
    (runFuel 2 (mk [1, 1] 12345 0 0)).2 = .halted ∧ (runFuel 2 (mk [5, 7] 0 0 0)).2 = .fault .decodeError ∧
    (runFuel 1 (mk [1, 1] 12345 0 0)).2 = .outOfFuel := by decide

theorem witness_JumpToItselfRunsForever :
    Spec.ready (mk [1, 1, 3, 2] 1 0 0 2) ∧ (mk [1, 1, 3, 2] 1 0 0 2).pm[2]? = some 3 ∧
    (mk [1, 1, 3, 2] 1 0 0 2).pm[3]? = some 2 ∧ (2 : ProgCell).toNat = (mk [1, 1, 3, 2] 1 0 0 2).ip ∧
    (mk [1, 1, 3, 2] 1 0 0 2).a ≠ 0 := by decide

/-- Two backward jumps, at steps 1 and 3 of V1's loop without its Output, with the shrinking DivA at step 2 between
them, and the run then over: A = 4 becomes 2, 1 and 0. -/
theorem witness_RunThatShrinksAEnds :
    backwardJump (stateAt (mk [0, 1, 3, 0] 4 0 0) 1) = true ∧ backwardJump (stateAt (mk [0, 1, 3, 0] 4 0 0) 3) = true ∧
    backwardJump (stateAt (mk [0, 1, 3, 0] 4 0 0) 2) = false ∧ shrinksA (stateAt (mk [0, 1, 3, 0] 4 0 0) 2) = true ∧
    (runFuel 7 (mk [0, 1, 3, 0] 4 0 0)).2 = .halted := by decide

/-- The same loop meets the condition of the termination statement: its only backward jumps are at steps 1 and 3. -/
theorem witness_shrinking_condition : ∀ i j : Nat, i < j → backwardJump (stateAt (mk [0, 1, 3, 0] 4 0 0) i) = true →
    backwardJump (stateAt (mk [0, 1, 3, 0] 4 0 0) j) = true →
      ∃ m, i < m ∧ m < j ∧ shrinksA (stateAt (mk [0, 1, 3, 0] 4 0 0) m) = true := by
  have h : ∀ n, backwardJump (stateAt (mk [0, 1, 3, 0] 4 0 0) n) = true → n = 1 ∨ n = 3 := by
    intro n
    match n with
    | 0 | 1 | 2 | 3 | 4 | 5 | 6 => decide
    | n + 7 =>
      have h1 : (runFuel 7 (mk [0, 1, 3, 0] 4 0 0)).1.enabled = false := by decide
      have h2 : stateAt (mk [0, 1, 3, 0] 4 0 0) (n + 7) = (runFuel 7 (mk [0, 1, 3, 0] 4 0 0)).1 := by
        rw [stateAt, Nat.add_comm, runFuel_add, runFuel_terminal h1]
      have h3 : backwardJump (runFuel 7 (mk [0, 1, 3, 0] 4 0 0)).1 = false := by decide
      intro hb
      rw [h2, h3] at hb; cases hb
  intro i j hij hi hj
  have hi := h i hi
  have hj := h j hj
  exact ⟨2, by omega, by omega, by decide⟩

theorem witness_ValidProgramWithEvenTargetsNeverFaults :
    (mk [0, 1, 5, 4, 3, 0] 729 0 0).pm = encodeProgram [.divA (.lit 1), .output (.reg .A), .jumpIfNonzero 0] ∧
    (∀ i ∈ [Instr.divA (.lit 1), .output (.reg .A), .jumpIfNonzero 0], i.wellFormed = true) ∧
    (∀ k : ProgCell, Instr.jumpIfNonzero k ∈ [Instr.divA (.lit 1), .output (.reg .A), .jumpIfNonzero 0] → k.toNat % 2 = 0) ∧
    (mk [0, 1, 5, 4, 3, 0] 729 0 0).cfg.outCap = none ∧ (mk [0, 1, 5, 4, 3, 0] 729 0 0).ip % 2 = 0 ∧
    (mk [0, 1, 5, 4, 3, 0] 729 0 0).runState ≠ .faulted := by decide

theorem witness_IpFitsItsFiniteWidth : ∃ (s : State) (m : Nat), s.Inv ∧ s.cfg.progLenMax = some m := ⟨_, _, inv_loaded, rfl⟩

theorem witness_LoadBuildsAFreshState : Spec.loadable ⟨some 8, some 4, none⟩ [7, 0, 5, 4] 255 0 0 :=
  ⟨rfl, by decide, by simp, by simp [Spec.fits], by simp [Spec.fits], by simp [Spec.fits]⟩

/-- Each of LOAD's four reasons, at the boundary of its range. -/
theorem witness_LoadRefusesBadArguments :
    (hostDo (.load [7] 0 0 0) State.reset).2 = .loadRefused .oddLength ∧
    (hostDo (.load [7, 8] 0 0 0) State.reset).2 = .loadRefused .cellOutOfRange ∧
    (hostDo (.load [7, 7, 7, 7] 0 0 0) { State.reset with cfg := ⟨none, some 3, none⟩ }).2 = .loadRefused .tooLong ∧
    (hostDo (.load [] 0 0 8) { State.reset with cfg := ⟨some 3, none, none⟩ }).2 = .loadRefused .registerTooWide := by
  decide

theorem witness_WriteRegOnlyInIdle :
    Spec.fits ⟨some 3, none, none⟩ 7 ∧ ¬ Spec.fits ⟨some 3, none, none⟩ 8 ∧ (mk [5, 4] 1 0 0).runState = .idle :=
  ⟨by simp [Spec.fits], by simp [Spec.fits], rfl⟩

theorem witness_HostStepReportsHowItEnded :
    Spec.ready (mk [5, 4] 1 0 0) ∧ hostDo .step (mk [] 1 0 0) = ({ mk [] 1 0 0 with runState := .halted }, .stepped .halted) ∧
    (hostDo .step (mk [0, 7] 1 0 0)).2 = .stepped (.fault .decodeError) := by decide

theorem witness_OnlyLoadLeavesATerminalState :
    ¬ Spec.ready { mk [0, 7] 1 0 0 with runState := .faulted, cause := .decodeError } ∧
    ¬ Spec.ready { mk [] 1 0 0 with runState := .halted } ∧
    (∀ op ∈ [HostOp.run 3, .writeReg .A 1, .step], ∀ prog a b c, op ≠ .load prog a b c) := by
  refine ⟨by decide, by decide, ?_⟩
  simp

theorem witness_SpellingIsReadBack : (Instr.divA (.reg .C)).wellFormed = true ∧ (Instr.divC .reserved).wellFormed = false := by
  decide

theorem witness_PlacedWordRunsNext : decodeTableWord 8 63 = some (.divC .reserved) ∧ decodeTableWord 8 0 = some (.divA (.lit 0)) ∧
    (State.reset.withFetchWord 8 63).pm = [7, 7] := by decide

end Sys2Proof.Tests
end

/-! SUPPORT. The statements of 10_state R23 and R29: the register table, and odd instruction pointers.

`ExecCase.exec_eq` is the converse of `ExecCase.of_exec`: to know how an instruction goes from a changed state, it is
enough to carry its case over. For R29 the ip of a step's next state is read off the cases of the step. -/

namespace Sys2Proof.Machine

/-! ### The cases of an instruction determine its execution -/

theorem Combo.eq_reserved_of_not_valid {k : Combo} (h : k.valid = false) : k = .reserved := by
  cases k with
  | lit n => cases h
  | reg r => cases h
  | reserved => rfl

/-- The ill-formed instructions, one per combo-mode opcode (30_encoding R67). -/
theorem illFormed_cases {i : Instr} (h : i.wellFormed = false) :
    i = .divA .reserved ∨ i = .modulo .reserved ∨ i = .output .reserved ∨ i = .divB .reserved ∨
      i = .divC .reserved := by
  cases i with
  | xorLiteral k => cases h
  | jumpIfNonzero k => cases h
  | xorRegisters k => cases h
  | divA k => simp [Combo.eq_reserved_of_not_valid h]
  | modulo k => simp [Combo.eq_reserved_of_not_valid h]
  | output k => simp [Combo.eq_reserved_of_not_valid h]
  | divB k => simp [Combo.eq_reserved_of_not_valid h]
  | divC k => simp [Combo.eq_reserved_of_not_valid h]

theorem exec_of_illFormed {i : Instr} (s : State) (h : i.wellFormed = false) :
    exec i s = .next (s.raise .decodeError) := by
  obtain rfl | rfl | rfl | rfl | rfl := illFormed_cases h <;> rfl

theorem regEffect_of_illFormed {i : Instr} (s : State) (h : i.wellFormed = false) : regEffect i s = none := by
  obtain rfl | rfl | rfl | rfl | rfl := illFormed_cases h <;> rfl

/-- An instruction with a register effect writes it and completes. -/
theorem exec_of_regEffect {i : Instr} {s : State} {r : Reg} {v : Nat} (h : regEffect i s = some (r, v)) :
    exec i s = .next (s.writeReg r v).complete := by
  obtain ⟨t, hx, hc⟩ := exec_cases i s
  cases hc with
  | decodeError hw => cases h.symm.trans (regEffect_of_illFormed s hw)
  | reg q w hw hq => cases h.symm.trans hq; exact hx
  | taken k hi ha => subst hi; cases h
  | notTaken k hi ha => subst hi; cases h
  | output k w hi hk hv hf => subst hi; cases h
  | overflow k hi hk hf => subst hi; cases h

/-- The converse of `ExecCase.of_exec`: each case of an instruction is what `exec` answers. -/
theorem ExecCase.exec_eq {i : Instr} {s t : State} (h : ExecCase i s t) : exec i s = .next t := by
  cases h with
  | decodeError hw => exact exec_of_illFormed s hw
  | reg r v hw hr => exact exec_of_regEffect hr
  | taken k hi ha => subst hi; simp [exec, execJumpIfNonzero, literal, ha]
  | notTaken k hi ha => subst hi; simp [exec, execJumpIfNonzero, ha]
  | output k v hi hk hv hf => subst hi; simp [exec, execOutput_ok hv, hf]
  | overflow k hi hk hf =>
    subst hi
    obtain ⟨-, v, hv⟩ | ⟨rfl, -⟩ := Combo.resolve_cases k s
    · simp [exec, execOutput_ok hv, hf]
    · cases hk

/-! ### A register write commutes with the other updates -/

theorem State.writeReg_comm (s : State) {r q : Reg} (v w : Nat) (h : r ≠ q) :
    (s.writeReg r v).writeReg q w = (s.writeReg q w).writeReg r v := by
  cases r <;> cases q <;> simp [State.writeReg] at h ⊢

theorem State.writeReg_setIp (s : State) (n : Nat) (r : Reg) (v : Nat) :
    (s.setIp n).writeReg r v = (s.writeReg r v).setIp n := by cases r <;> rfl

theorem State.writeReg_append (s : State) (d : Digit) (r : Reg) (v : Nat) :
    (s.append d).writeReg r v = (s.writeReg r v).append d := by cases r <;> rfl

theorem State.writeReg_raise (s : State) (c : Cause) (r : Reg) (v : Nat) :
    (s.raise c).writeReg r v = (s.writeReg r v).raise c := by cases r <;> rfl

theorem State.writeReg_activate (s : State) (r : Reg) (v : Nat) :
    s.activate.writeReg r v = (s.writeReg r v).activate := by cases r <;> rfl

theorem State.writeReg_complete (s : State) (r : Reg) (v : Nat) :
    s.complete.writeReg r v = (s.writeReg r v).complete := by cases r <;> rfl

@[simp] theorem State.outFull_writeReg (s : State) (r : Reg) (v : Nat) : (s.writeReg r v).outFull = s.outFull := by
  cases r <;> rfl

/-- The statements' own register write is the model's. -/
theorem withReg_eq_writeReg (s : State) (r : Reg) (x : Nat) : Spec.withReg s r x = s.writeReg r x := by
  cases r <;> rfl

/-! ### The read and write table (10_state R23) -/

theorem writes_unique {i : Instr} {r q : Reg} (hr : Spec.writes i r) (hq : Spec.writes i q) : r = q := by
  cases i with
  | jumpIfNonzero k => exact hr.elim
  | output k => exact hr.elim
  | divA k => exact hr.trans hq.symm
  | xorLiteral k => exact hr.trans hq.symm
  | modulo k => exact hr.trans hq.symm
  | xorRegisters k => exact hr.trans hq.symm
  | divB k => exact hr.trans hq.symm
  | divC k => exact hr.trans hq.symm

/-- The written register is the table's. -/
theorem writes_of_regEffect {i : Instr} {s : State} {r : Reg} {v : Nat} (h : regEffect i s = some (r, v)) :
    Spec.writes i r := by
  cases i <;> simp only [regEffect, Option.map_eq_some_iff, Option.some.injEq, Prod.mk.injEq, reduceCtorEq] at h
  case divA k => obtain ⟨u, -, rfl, -⟩ := h; rfl
  case divB k => obtain ⟨u, -, rfl, -⟩ := h; rfl
  case divC k => obtain ⟨u, -, rfl, -⟩ := h; rfl
  case modulo k => obtain ⟨u, -, rfl, -⟩ := h; rfl
  case xorLiteral k => obtain ⟨rfl, -⟩ := h; rfl
  case xorRegisters k => obtain ⟨rfl, -⟩ := h; rfl

/-- A combo operand reads no register but the one it names. -/
theorem Combo.resolve_writeReg {k : Combo} {r : Reg} (s : State) (x : Nat) (h : k ≠ .reg r) :
    Combo.resolve k (s.writeReg r x) = Combo.resolve k s := by
  cases k with
  | lit n => rfl
  | reserved => rfl
  | reg q =>
    have hq : q ≠ r := fun e => h (e ▸ rfl)
    simp [State.readReg_writeReg_of_ne s x hq]

theorem State.writeReg_a_of_ne (s : State) {r : Reg} (x : Nat) (h : r ≠ .A) : (s.writeReg r x).a = s.a :=
  s.readReg_writeReg_of_ne x h.symm

theorem State.writeReg_b_of_ne (s : State) {r : Reg} (x : Nat) (h : r ≠ .B) : (s.writeReg r x).b = s.b :=
  s.readReg_writeReg_of_ne x h.symm

theorem State.writeReg_c_of_ne (s : State) {r : Reg} (x : Nat) (h : r ≠ .C) : (s.writeReg r x).c = s.c :=
  s.readReg_writeReg_of_ne x h.symm

/-- What an instruction writes does not depend on a register it does not read. -/
theorem regEffect_writeReg {i : Instr} {r : Reg} (s : State) (x : Nat) (hr : ¬ Spec.reads i r) :
    regEffect i (s.writeReg r x) = regEffect i s := by
  cases i with
  | jumpIfNonzero k => rfl
  | output k => rfl
  | xorLiteral k => simp only [regEffect, s.writeReg_b_of_ne x hr]
  | modulo k => simp only [regEffect, Combo.resolve_writeReg s x hr]
  | xorRegisters k =>
    obtain ⟨hB, hC⟩ := not_or.1 hr
    simp only [regEffect, s.writeReg_b_of_ne x hB, s.writeReg_c_of_ne x hC]
  | divA k =>
    obtain ⟨hA, hk⟩ := not_or.1 hr
    simp only [regEffect, s.writeReg_a_of_ne x hA, Combo.resolve_writeReg s x hk]
  | divB k =>
    obtain ⟨hA, hk⟩ := not_or.1 hr
    simp only [regEffect, s.writeReg_a_of_ne x hA, Combo.resolve_writeReg s x hk]
  | divC k =>
    obtain ⟨hA, hk⟩ := not_or.1 hr
    simp only [regEffect, s.writeReg_a_of_ne x hA, Combo.resolve_writeReg s x hk]

/-- A register outside the "written by" entry keeps its value. -/
theorem ExecCase.readReg_of_not_writes {i : Instr} {s t : State} {r : Reg} (h : ExecCase i s t)
    (hw : ¬ Spec.writes i r) : t.readReg r = s.readReg r := by
  cases h with
  | reg q v hi hq =>
    have hne : r ≠ q := fun e => hw (e ▸ writes_of_regEffect hq)
    simp [State.readReg_writeReg_of_ne s v hne]
  | decodeError hi => simp
  | taken k hi ha => simp
  | notTaken k hi ha => simp
  | output k v hi hk hv hf => simp
  | overflow k hi hk hf => simp

/-- An unread register that the instruction does write: its old value is lost, and nothing else depends on it. -/
theorem ExecCase.writeReg_of_written {i : Instr} {s t : State} {r : Reg} (h : ExecCase i s t) (x : Nat)
    (hr : ¬ Spec.reads i r) (hw : Spec.writes i r) (ht : t.runState = .active) : ExecCase i (s.writeReg r x) t := by
  cases h with
  | reg q v hi hq =>
    obtain rfl := writes_unique hw (writes_of_regEffect hq)
    have hc := ExecCase.reg r v hi ((regEffect_writeReg s x hr).trans hq)
    rwa [State.writeReg_writeReg] at hc
  | decodeError hi => cases ht
  | taken k hi ha => subst hi; exact hw.elim
  | notTaken k hi ha => subst hi; exact hw.elim
  | output k v hi hk hv hf => subst hi; exact hw.elim
  | overflow k hi hk hf => cases ht

/-- An unread register that the instruction does not write, or that a fault keeps it from writing: the instruction goes
the same way, and the register carries its value through. -/
theorem ExecCase.writeReg_of_unwritten {i : Instr} {s t : State} {r : Reg} (h : ExecCase i s t) (x : Nat)
    (hr : ¬ Spec.reads i r) (hw : ¬ (Spec.writes i r ∧ t.runState = .active)) :
    ExecCase i (s.writeReg r x) (t.writeReg r x) := by
  cases h with
  | reg q v hi hq =>
    have hne : q ≠ r := fun e => hw ⟨e ▸ writes_of_regEffect hq, rfl⟩
    rw [State.writeReg_complete, State.writeReg_comm s v x hne]
    exact .reg q v hi ((regEffect_writeReg s x hr).trans hq)
  | decodeError hi => rw [State.writeReg_raise]; exact .decodeError hi
  | taken k hi ha =>
    subst hi
    rw [State.writeReg_activate, State.writeReg_setIp]
    exact .taken k rfl (by rwa [s.writeReg_a_of_ne x hr])
  | notTaken k hi ha =>
    subst hi
    rw [State.writeReg_complete]
    exact .notTaken k rfl (by rwa [s.writeReg_a_of_ne x hr])
  | output k v hi hk hv hf =>
    subst hi
    rw [State.writeReg_complete, State.writeReg_append]
    exact .output k v rfl hk (by rwa [Combo.resolve_writeReg s x hr]) (by rwa [State.outFull_writeReg])
  | overflow k hi hk hf =>
    rw [State.writeReg_raise]
    exact .overflow k hi hk (by rwa [State.outFull_writeReg])

/-- Settles O36: `exec_cases` gives the next state, and its case is carried over to the state with the unread register
changed, by whether the register was written. -/
theorem registersReadAndWrittenAsTabled : Obligations.RegistersReadAndWrittenAsTabled := by
  unfold Obligations.RegistersReadAndWrittenAsTabled
  intro i s
  obtain ⟨t, hx, hc⟩ := exec_cases i s
  refine ⟨t, hx, fun r hw => hc.readReg_of_not_writes hw, fun r q => writes_unique, fun r x hr => ?_⟩
  simp only [withReg_eq_writeReg]
  exact ⟨fun ⟨hw, ht⟩ => (hc.writeReg_of_written x hr hw ht).exec_eq,
    fun hw => (hc.writeReg_of_unwritten x hr hw).exec_eq⟩

/-! ### Odd instruction pointers (10_state R29) -/

/-- Only the opcode 3 decodes to a jump, and its literal is the operand cell. -/
theorem decodePair_eq_jumpIfNonzero {op k j : ProgCell} (h : decodePair op k = .jumpIfNonzero j) : op = 3 ∧ k = j := by
  constructor
  · calc op = (decodePair op k).opcode.cell := by rw [decodePair_opcode, cell_decodeOpcode]
      _ = 3 := by rw [h]; rfl
  · calc k = (decodePair op k).operandCell := (decodePair_operandCell op k).symm
      _ = j := by rw [h]; rfl

/-- An instruction keeps ip (a fault), adds 2 to it, or is a taken jump to its literal (43_control R122). -/
theorem ExecCase.ip_cases {i : Instr} {s t : State} (h : ExecCase i s t) :
    t.ip = s.ip ∨ t.ip = s.ip + 2 ∨ ∃ k : ProgCell, i = .jumpIfNonzero k ∧ s.a ≠ 0 ∧ t.ip = k.toNat := by
  cases h with
  | decodeError hi => exact .inl rfl
  | overflow k hi hk hf => exact .inl rfl
  | reg r v hi hr => exact .inr (.inl (by simp))
  | notTaken k hi ha => exact .inr (.inl rfl)
  | output k v hi hk hv hf => exact .inr (.inl rfl)
  | taken k hi ha => exact .inr (.inr ⟨k, hi, ha, rfl⟩)

/-- A step keeps ip, adds 2 to it, or runs a taken jump at ip (43_control R122). -/
theorem StepCase.ip_cases {s t : State} (h : StepCase s t) :
    t.ip = s.ip ∨ t.ip = s.ip + 2 ∨
      ∃ k : ProgCell, s.pm[s.ip]? = some 3 ∧ s.pm[s.ip + 1]? = some k ∧ s.a ≠ 0 ∧ t.ip = k.toNat := by
  cases h with
  | halt hip => exact .inl rfl
  | truncated hip => exact .inl rfl
  | instr op k hop hk hx hc =>
    obtain hip | hip | ⟨j, hi, ha, hip⟩ := hc.ip_cases
    · exact .inl hip
    · exact .inr (.inl hip)
    · obtain ⟨rfl, rfl⟩ := decodePair_eq_jumpIfNonzero hi
      exact .inr (.inr ⟨k, hop, hk, ha, hip⟩)

/-- A machine that has a step and finds opcode 3 at ip with A ≠ 0 jumps to the operand cell's value. -/
theorem step_of_taken_jump {s : State} {k : ProgCell} (h : s.enabled = true) (hop : s.pm[s.ip]? = some 3)
    (hk : s.pm[s.ip + 1]? = some k) (ha : s.a ≠ 0) : step s = .next (s.setIp k.toNat).activate :=
  (step_of_cells h hop hk).trans (ExecCase.taken k rfl ha).exec_eq

/-- Settles O21: the jump and the pair at ip by the step's equations, and the parity of ip by `StepCase.ip_cases`, since
keeping ip or adding 2 to it keeps its parity. -/
theorem oddIpPersistsUntilAJump : Obligations.OddIpPersistsUntilAJump := by
  unfold Obligations.OddIpPersistsUntilAJump
  intro s hs
  have he : s.enabled = true := s.enabled_iff.2 hs
  refine ⟨fun k hop hk ha => ⟨_, step_of_taken_jump he hop hk ha, rfl⟩,
    fun op k hop hk _ => step_of_cells he hop hk, fun t hst hodd heven => ?_⟩
  obtain hip | hip | ⟨k, hop, -, ha, -⟩ := (StepCase.of_step hst).ip_cases
  · omega
  · omega
  · exact ⟨hop, ha⟩

end Sys2Proof.Machine

/-! SUPPORT. The statement of 20_memory R43: program memory is read-only but for LOAD.

What the cases of an instruction and of a step keep is carried along runs, and `hostDo_keeps_or_load` says it of the host
operations: all of them keep program memory and the parameters, except a LOAD whose checks pass. -/

namespace Sys2Proof.Machine

/-! ### Instructions, steps and runs keep program memory and the parameters -/

theorem ExecCase.pm_cfg_eq {i : Instr} {s t : State} (h : ExecCase i s t) : t.pm = s.pm ∧ t.cfg = s.cfg := by
  cases h with
  | reg r v hi hr => simp
  | decodeError hi => exact ⟨rfl, rfl⟩
  | taken k hi ha => exact ⟨rfl, rfl⟩
  | notTaken k hi ha => exact ⟨rfl, rfl⟩
  | output k v hi hk hv hf => exact ⟨rfl, rfl⟩
  | overflow k hi hk hf => exact ⟨rfl, rfl⟩

theorem StepCase.pm_cfg_eq {s t : State} (h : StepCase s t) : t.pm = s.pm ∧ t.cfg = s.cfg := by
  cases h with
  | halt hip => exact ⟨rfl, rfl⟩
  | truncated hip => exact ⟨rfl, rfl⟩
  | instr op k hop hk hx hc => exact hc.pm_cfg_eq

theorem step_pm_cfg_eq {s t : State} (h : step s = .next t) : t.pm = s.pm ∧ t.cfg = s.cfg :=
  (StepCase.of_step h).pm_cfg_eq

theorem Runs.pm_cfg_eq {s t : State} (h : Runs s t) : t.pm = s.pm ∧ t.cfg = s.cfg := by
  refine h.keeps (P := fun u => u.pm = s.pm ∧ u.cfg = s.cfg) ?_ ⟨rfl, rfl⟩
  intro u v ⟨hpm, hcfg⟩ huv
  obtain ⟨hpm', hcfg'⟩ := step_pm_cfg_eq huv
  exact ⟨hpm'.trans hpm, hcfg'.trans hcfg⟩

/-! ### The host operations -/

/-- WRITE_REG either writes the register or leaves the state as it is (60_exceptions R158). -/
theorem hostWriteReg_state (r : Reg) (v : Nat) (s : State) :
    (hostWriteReg r v s).1 = s.writeReg r v ∨ (hostWriteReg r v s).1 = s := by
  unfold hostWriteReg
  split
  · exact .inl rfl
  · exact .inr rfl

theorem hostWriteReg_pm_cfg_eq (r : Reg) (v : Nat) (s : State) :
    (hostWriteReg r v s).1.pm = s.pm ∧ (hostWriteReg r v s).1.cfg = s.cfg := by
  obtain h | h := hostWriteReg_state r v s
  · simp [h]
  · simp [h]

theorem hostStep_pm_cfg_eq (s : State) : (hostStep s).1.pm = s.pm ∧ (hostStep s).1.cfg = s.cfg := by
  cases h : s.enabled with
  | false => simp [hostStep_terminal h]
  | true =>
    obtain ⟨t, ht, hc⟩ := step_cases h
    rw [hostStep_enabled ht]
    exact hc.pm_cfg_eq

/-- A host operation keeps program memory and the parameters, or it is a LOAD whose checks pass. -/
theorem hostDo_keeps_or_load (op : HostOp) (s : State) :
    ((hostDo op s).1.pm = s.pm ∧ (hostDo op s).1.cfg = s.cfg) ∨
      ∃ prog a b c, op = .load prog a b c ∧ loadCheck s.cfg prog a b c = none := by
  cases op with
  | load prog a b c =>
    cases h : loadCheck s.cfg prog a b c with
    | none => exact .inr ⟨prog, a, b, c, rfl, h⟩
    | some r => simp [hostDo, hostLoad_refused h]
  | writeReg r v => exact .inl (hostWriteReg_pm_cfg_eq r v s)
  | readReg r => exact .inl ⟨rfl, rfl⟩
  | readIp => exact .inl ⟨rfl, rfl⟩
  | readStatus => exact .inl ⟨rfl, rfl⟩
  | readOutput => exact .inl ⟨rfl, rfl⟩
  | step => exact .inl (hostStep_pm_cfg_eq s)
  | run fuel => exact .inl (runFuel_runs fuel s).pm_cfg_eq

/-- The cells LOAD writes are the program's own values, where each of them is at most 7 (60_exceptions R157). -/
theorem Memory.map_toNat_ofProgram {prog : List Nat} (h : ∀ x ∈ prog, x ≤ 7) :
    (Memory.ofProgram prog).map BitVec.toNat = prog := by
  have hcell : ∀ x ∈ prog, (BitVec.toNat ∘ BitVec.ofNat 3) x = id x := by
    intro x hx
    have hx7 := h x hx
    simp only [Function.comp_apply, BitVec.toNat_ofNat, id_eq]
    omega
  rw [Memory.ofProgram, List.map_map, List.map_congr_left hcell, List.map_id]

/-- Settles O35: a step by `step_pm_cfg_eq`, a host operation by `hostDo_keeps_or_load`; an accepted LOAD builds its fresh
state with the old parameters and the program's cells. -/
theorem programMemoryIsReadOnly : Obligations.ProgramMemoryIsReadOnly := by
  unfold Obligations.ProgramMemoryIsReadOnly
  refine ⟨fun s t => step_pm_cfg_eq, fun op s => ?_⟩
  obtain ⟨hpm, hcfg⟩ | ⟨prog, a, b, c, rfl, hload⟩ := hostDo_keeps_or_load op s
  · exact ⟨hcfg, fun hne => absurd hpm hne⟩
  · obtain ⟨-, hcells, -⟩ := (loadCheck_none s.cfg prog a b c).1 hload
    have hdo : hostDo (.load prog a b c) s = (State.fresh s.cfg (Memory.ofProgram prog) a b c, .ok) :=
      hostLoad_ok hload
    rw [hdo]
    exact ⟨rfl, fun _ => ⟨prog, a, b, c, rfl, rfl, Memory.map_toNat_ofProgram hcells⟩⟩

end Sys2Proof.Machine

/-! SUPPORT. The statements of 30_encoding R62, R64 and R67: operand modes, combo codes and the reserved pairs.

A pair and its instruction determine each other, so a fact about instructions (`Laws.ReservedPairs`) is a fact
about pairs of cells: the reserved pairs are those with a combo-mode opcode and the operand cell 7. -/

namespace Sys2Proof

/-! ### Operand modes (30_encoding R62) -/

theorem mode_eq_literal_iff (op : ProgCell) : (decodeOpcode op).mode = .literal ↔ op = 1 ∨ op = 3 := by
  revert op; decide

theorem mode_eq_combo_iff (op : ProgCell) : (decodeOpcode op).mode = .combo ↔ Spec.comboOpcode op := by
  revert op; decide

theorem mode_eq_ignored_iff (op : ProgCell) : (decodeOpcode op).mode = .ignored ↔ op = 4 := by
  revert op; decide

/-! ### A pair, its word and its instruction determine each other (30_encoding R61, R70) -/

theorem encode_decodePair (op k : ProgCell) : encode (decodePair op k) = (op, k) := by
  rw [encode, decodePair_opcode, cell_decodeOpcode, decodePair_operandCell]

theorem decodePair_encode (i : Instr) : decodePair (encode i).1 (encode i).2 = i := by
  simp only [decodePair, encode, decodeOpcode_cell]
  cases i with
  | xorLiteral k => rfl
  | jumpIfNonzero k => rfl
  | xorRegisters k => rfl
  | divA k => exact congrArg Instr.divA (Combo.ofCode_code k)
  | modulo k => exact congrArg Instr.modulo (Combo.ofCode_code k)
  | output k => exact congrArg Instr.output (Combo.ofCode_code k)
  | divB k => exact congrArg Instr.divB (Combo.ofCode_code k)
  | divC k => exact congrArg Instr.divC (Combo.ofCode_code k)

theorem decodePair_inj {op k op' k' : ProgCell} : decodePair op k = decodePair op' k' ↔ op = op' ∧ k = k' := by
  refine ⟨fun h => ?_, fun ⟨hop, hk⟩ => hop ▸ hk ▸ rfl⟩
  have he : (op, k) = (op', k') := by rw [← encode_decodePair op k, h, encode_decodePair]
  exact Prod.ext_iff.1 he

theorem pairWord_lt (op k : ProgCell) : pairWord op k < 64 := by
  unfold pairWord; omega

theorem pairWord_div (op k : ProgCell) : pairWord op k / 8 = op.toNat := by
  unfold pairWord; omega

theorem pairWord_mod (op k : ProgCell) : pairWord op k % 8 = k.toNat := by
  unfold pairWord; omega

theorem pairWord_inj {op k op' k' : ProgCell} : pairWord op k = pairWord op' k' ↔ op = op' ∧ k = k' := by
  refine ⟨fun h => ⟨BitVec.eq_of_toNat_eq ?_, BitVec.eq_of_toNat_eq ?_⟩, fun ⟨hop, hk⟩ => hop ▸ hk ▸ rfl⟩
  · rw [← pairWord_div op k, h, pairWord_div]
  · rw [← pairWord_mod op k, h, pairWord_mod]

/-! ### The reserved pairs (30_encoding R67) -/

theorem illFormed_iff (i : Instr) : Laws.ReservedPairs.Statement i := by
  cases i with
  | divA k => exact Laws.ReservedPairs.divA k
  | xorLiteral k => exact Laws.ReservedPairs.xorLiteral k
  | modulo k => exact Laws.ReservedPairs.modulo k
  | jumpIfNonzero k => exact Laws.ReservedPairs.jumpIfNonzero k
  | xorRegisters k => exact Laws.ReservedPairs.xorRegisters k
  | output k => exact Laws.ReservedPairs.output k
  | divB k => exact Laws.ReservedPairs.divB k
  | divC k => exact Laws.ReservedPairs.divC k

/-- The ill-formed pairs are those with a combo-mode opcode and the operand cell 7. -/
theorem decodePair_illFormed_iff (op k : ProgCell) :
    (decodePair op k).wellFormed = false ↔ Spec.comboOpcode op ∧ k = 7 := by
  have h := illFormed_iff (decodePair op k)
  rwa [Laws.ReservedPairs.Statement, encode_decodePair, mode_eq_combo_iff] at h

/-- The five reserved words are those of a combo-mode opcode with the operand cell 7. -/
theorem pairWord_mem_reserved_iff (op k : ProgCell) :
    pairWord op k ∈ [0o07, 0o27, 0o57, 0o67, 0o77] ↔ Spec.comboOpcode op ∧ k = 7 := by
  have hwords : [0o07, 0o27, 0o57, 0o67, 0o77] = [0, 2, 5, 6, 7].map fun o : ProgCell => pairWord o 7 := rfl
  rw [hwords]
  simp only [List.map_cons, List.map_nil, List.mem_cons, List.not_mem_nil, or_false, pairWord_inj, ← or_and_right]

end Sys2Proof

namespace Sys2Proof.Machine

/-! ### The list of all pairs -/

theorem mem_allPairs (i : Instr) : i ∈ allPairs := by
  refine List.mem_map.2 ⟨pairWord (encode i).1 (encode i).2, List.mem_range.2 (pairWord_lt _ _), ?_⟩
  rw [pairWord_div, pairWord_mod, BitVec.ofNat_toNat, BitVec.ofNat_toNat, BitVec.setWidth_eq, BitVec.setWidth_eq,
    decodePair_encode]

theorem allPairs_nodup : allPairs.Nodup := by
  refine List.Nodup.map_on (fun v hv w hw h => ?_) List.nodup_range
  obtain ⟨hdiv, hmod⟩ := decodePair_inj.1 h
  have hdiv := congrArg BitVec.toNat hdiv
  have hmod := congrArg BitVec.toNat hmod
  simp only [BitVec.toNat_ofNat, List.mem_range] at hdiv hmod hv hw
  omega

theorem allPairs_wellFormed_length : (allPairs.filter fun i => i.wellFormed).length = 59 := by decide

/-! ### DecodeError is the ill-formed instructions' -/

/-- The statements' own fault entry is the model's. -/
theorem faulted_eq_raise (s : State) (c : Cause) : Spec.faulted s c = s.raise c := rfl

theorem ExecCase.illFormed_of_decodeError {i : Instr} {s t : State} (h : ExecCase i s t) (hs : t.runState = .faulted)
    (hc : t.cause = .decodeError) : i.wellFormed = false := by
  cases h with
  | decodeError hw => exact hw
  | overflow k hi hk hf => cases hc
  | reg r v hw hr => cases hs
  | taken k hi ha => cases hs
  | notTaken k hi ha => cases hs
  | output k v hi hk hv hf => cases hs

theorem exec_eq_decodeError_iff (i : Instr) (s : State) :
    exec i s = .next (s.raise .decodeError) ↔ i.wellFormed = false :=
  ⟨fun h => (ExecCase.of_exec h).illFormed_of_decodeError rfl rfl, exec_of_illFormed s⟩

/-- Settles O4: `exec_eq_decodeError_iff` turns the DecodeError entry into ill-formedness, which both the pairs and the
five words have exactly for a combo-mode opcode with the operand cell 7. -/
theorem reservedPairsAreExactlyFive : Obligations.ReservedPairsAreExactlyFive := by
  unfold Obligations.ReservedPairsAreExactlyFive
  refine ⟨fun op k s => ?_, allPairs_wellFormed_length, allPairs_nodup, mem_allPairs⟩
  rw [faulted_eq_raise, exec_eq_decodeError_iff, decodePair_illFormed_iff, pairWord_mem_reserved_iff]
  exact ⟨.rfl, .rfl⟩

/-! ### Combo operands (30_encoding R64) -/

/-- combo(k) of every operand cell: the table's value, and DecodeError for the reserved cell 7. -/
theorem Combo.resolve_ofCode (k : ProgCell) (s : State) :
    Combo.resolve (Combo.ofCode k) s = if k = 7 then .error .decodeError else .ok (Spec.comboValue k s) := by
  match k with
  | 0#3 => rfl
  | 1#3 => rfl
  | 2#3 => rfl
  | 3#3 => rfl
  | 4#3 => rfl
  | 5#3 => rfl
  | 6#3 => rfl
  | 7#3 => rfl

/-- XorRegisters does not look at its operand cell (30_encoding R65). -/
theorem exec_xorRegisters_congr (k k' : ProgCell) (s : State) :
    exec (.xorRegisters k) s = exec (.xorRegisters k') s := rfl

/-- Settles O2: the modes opcode by opcode, the operand each opcode's instruction carries by the decoder's own equation
for that opcode, and what the operand means by `Combo.resolve_ofCode` and `exec_xorRegisters_congr`. -/
theorem opcodeFixesTheOperandMode : Obligations.OpcodeFixesTheOperandMode := by
  unfold Obligations.OpcodeFixesTheOperandMode
  intro op
  refine ⟨mode_eq_literal_iff op, mode_eq_combo_iff op, mode_eq_ignored_iff op, fun k => ?literal, fun k => ?combo,
    fun k => ?ignored⟩
  case literal => exact ⟨by rintro rfl; rfl, by rintro rfl; rfl, rfl⟩
  case combo =>
    refine ⟨?_, ?_, ?_, ?_, ?_, Combo.resolve_ofCode k⟩
    all_goals rintro rfl; rfl
  case ignored =>
    rintro rfl
    exact ⟨rfl, exec_xorRegisters_congr k⟩

/-- Settles O3: `Combo.resolve_ofCode` at each of the eight operand cells. -/
theorem comboCodesResolve : Obligations.ComboCodesResolve := by
  unfold Obligations.ComboCodesResolve
  intro s
  exact ⟨Combo.resolve_ofCode 0 s, Combo.resolve_ofCode 1 s, Combo.resolve_ofCode 2 s, Combo.resolve_ofCode 3 s,
    Combo.resolve_ofCode 4 s, Combo.resolve_ofCode 5 s, Combo.resolve_ofCode 6 s, Combo.resolve_ofCode 7 s⟩

end Sys2Proof.Machine

/-! SUPPORT. The statement of 40_execute_cycle R82: the halt at the program's end.

No instruction halts: it completes in ACTIVE or raises a fault. So only the end-of-program case of a step ends in
HALTED. -/

namespace Sys2Proof.Machine

/-- An instruction ends in ACTIVE or FAULTED (40_execute_cycle R85 to R88). -/
theorem ExecCase.runState_cases {i : Instr} {s t : State} (h : ExecCase i s t) :
    t.runState = .active ∨ t.runState = .faulted := by
  cases h with
  | reg r v hw hr => exact .inl rfl
  | taken k hi ha => exact .inl rfl
  | notTaken k hi ha => exact .inl rfl
  | output k v hi hk hv hf => exact .inl rfl
  | decodeError hw => exact .inr rfl
  | overflow k hi hk hf => exact .inr rfl

theorem ExecCase.runState_ne_halted {i : Instr} {s t : State} (h : ExecCase i s t) : t.runState ≠ .halted := by
  obtain ht | ht := h.runState_cases
  · simp [ht]
  · simp [ht]

theorem StepCase.pastEnd_of_halted {s t : State} (h : StepCase s t) (ht : t.runState = .halted) :
    s.pm.length ≤ s.ip := by
  cases h with
  | halt hip => exact hip
  | truncated hip => cases ht
  | instr op k hop hk hx hc => exact absurd ht hc.runState_ne_halted

/-- Settles O26: past the end the step is `State.halt`, and by `StepCase.pastEnd_of_halted` no other case of a step
halts. -/
theorem ipPastTheEndHalts : Obligations.IpPastTheEndHalts := by
  unfold Obligations.IpPastTheEndHalts
  intro s hs
  exact ⟨step_of_pastEnd (s.enabled_iff.2 hs), fun t hst ht => (StepCase.of_step hst).pastEnd_of_halted ht⟩

end Sys2Proof.Machine

/-! SUPPORT. The statements of 41_division R101 and R104: DivA, and the division family with a combo value of 0.

Once its operand resolves, an instruction of the family writes a quotient and completes; the corner cases are two facts
about the quotient: dividing by 2^0 keeps the value, and shifting a value by itself leaves 0. -/

namespace Sys2Proof.Machine

/-! ### The quotient (41_division R100) -/

theorem quotient_eq_div (a v : Nat) : quotient a v = a / 2 ^ v := Nat.shiftRight_eq_div_pow a v

@[simp] theorem quotient_zero (a : Nat) : quotient a 0 = a := Nat.shiftRight_zero

/-- A value is below 2 to its own power, so shifting it by itself leaves nothing (R101, k = 4). -/
@[simp] theorem quotient_self (a : Nat) : quotient a a = 0 := by
  rw [quotient_eq_div, Nat.div_eq_of_lt Nat.lt_two_pow_self]

/-! ### The family where its operand resolves (41_division R101 to R103) -/

theorem exec_divA_ok {k : Combo} {s : State} {v : Nat} (h : Combo.resolve k s = .ok v) :
    exec (.divA k) s = .next (s.writeReg .A (quotient s.a v)).complete := execDivA_ok h

theorem exec_divB_ok {k : Combo} {s : State} {v : Nat} (h : Combo.resolve k s = .ok v) :
    exec (.divB k) s = .next (s.writeReg .B (quotient s.a v)).complete := execDivB_ok h

theorem exec_divC_ok {k : Combo} {s : State} {v : Nat} (h : Combo.resolve k s = .ok v) :
    exec (.divC k) s = .next (s.writeReg .C (quotient s.a v)).complete := execDivC_ok h

theorem Combo.resolve_ofCode_ok {k : ProgCell} (s : State) (h : k ≠ 7) :
    Combo.resolve (Combo.ofCode k) s = .ok (Spec.comboValue k s) := by
  rw [Combo.resolve_ofCode, if_neg h]

/-! ### DivA (41_division R101) -/

theorem exec_divA_ofCode {k : ProgCell} (s : State) (h : k ≠ 7) :
    exec (.divA (Combo.ofCode k)) s = .next (s.writeReg .A (s.a / 2 ^ Spec.comboValue k s)).complete := by
  rw [exec_divA_ok (Combo.resolve_ofCode_ok s h), quotient_eq_div]

theorem exec_divA_lit_zero (s : State) : exec (.divA (.lit 0)) s = .next s.complete := by
  rw [exec_divA_ok (Combo.resolve_lit 0 s), Fin.val_zero, quotient_zero]
  rfl

theorem exec_divA_reg_A (s : State) : exec (.divA (.reg .A)) s = .next (s.writeReg .A 0).complete := by
  rw [exec_divA_ok (Combo.resolve_reg .A s), State.readReg_A, quotient_self]

/-- Settles O10: the valid forms by `exec_divA_ofCode`, the corner cases by the quotient's facts, the reserved operand as
an ill-formed instruction, and the truncation as the step in the last cell. -/
theorem divADividesA : Obligations.DivADividesA := by
  unfold Obligations.DivADividesA
  intro s
  exact ⟨fun _ => rfl, fun _ => exec_divA_ofCode s, exec_divA_lit_zero s, exec_divA_reg_A s,
    exec_of_illFormed s (i := .divA .reserved) rfl, fun hs _ hip => step_of_last (s.enabled_iff.2 hs) hip⟩

/-! ### A combo value of 0 (41_division R104) -/

theorem divA_of_resolve_zero {k : Combo} {s : State} (h : Combo.resolve k s = .ok 0) :
    ∃ t, exec (.divA k) s = .next t ∧ t.a = s.a ∧ t.b = s.b ∧ t.c = s.c :=
  ⟨_, exec_divA_ok h, by simp⟩

theorem divB_of_resolve_zero {k : Combo} {s : State} (h : Combo.resolve k s = .ok 0) :
    ∃ t, exec (.divB k) s = .next t ∧ t.a = s.a ∧ t.b = s.a ∧ t.c = s.c :=
  ⟨_, exec_divB_ok h, by simp⟩

theorem divC_of_resolve_zero {k : Combo} {s : State} (h : Combo.resolve k s = .ok 0) :
    ∃ t, exec (.divC k) s = .next t ∧ t.a = s.a ∧ t.b = s.b ∧ t.c = s.a :=
  ⟨_, exec_divC_ok h, by simp⟩

/-- Settles O13: each destination receives A's quotient by 2^0, which is A; where the operand names A, that A is 0. -/
theorem comboValueZeroCopiesA : Obligations.ComboValueZeroCopiesA := by
  unfold Obligations.ComboValueZeroCopiesA
  intro k s hk
  refine ⟨divA_of_resolve_zero hk, divB_of_resolve_zero hk, divC_of_resolve_zero hk, ?_⟩
  rintro rfl
  have ha : s.a = 0 := Except.ok.inj hk
  obtain ⟨t, ht, hta, -, -⟩ := divA_of_resolve_zero hk
  obtain ⟨u, hu, -, hub, -⟩ := divB_of_resolve_zero hk
  obtain ⟨v, hv, -, -, hvc⟩ := divC_of_resolve_zero hk
  exact ⟨t, u, v, ht, hta.trans ha, hu, hub.trans ha, hv, hvc.trans ha⟩

end Sys2Proof.Machine

/-! SUPPORT. The statements of 42_bitwise R111 and R112: XorLiteral and Modulo.

XorLiteral always completes, so its statement is arithmetic: a literal is a single octal digit, and XOR works on each
octal digit by itself. Modulo writes the low octal digit of its operand once that resolves. -/

namespace Sys2Proof.Machine

/-! ### XOR with one octal digit (42_bitwise R110, R111) -/

/-- The bits from 3 up are kept. -/
theorem xorNat_div_eight {a b : Nat} (h : b < 8) : xorNat a b / 8 = a / 8 :=
  calc (a ^^^ b) / 2 ^ 3
    _ = a / 2 ^ 3 ^^^ b / 2 ^ 3 := Nat.xor_div_two_pow
    _ = a / 2 ^ 3 := by rw [Nat.div_eq_of_lt h, Nat.xor_zero]

/-- The digit 7 complements the low digit. -/
theorem xorNat_seven_mod_eight (a : Nat) : xorNat a 7 % 8 = 7 - a % 8 := by
  have digit : ∀ d < 8, d ^^^ 7 = 7 - d := by decide
  calc (a ^^^ 7) % 2 ^ 3
    _ = a % 2 ^ 3 ^^^ 7 % 2 ^ 3 := Nat.xor_mod_two_pow
    _ = 7 - a % 8 := digit _ (Nat.mod_lt a (by decide))

/-! ### XorLiteral (42_bitwise R111) -/

theorem exec_xorLiteral (k : ProgCell) (s : State) :
    exec (.xorLiteral k) s = .next (s.writeReg .B (xorNat s.b k.toNat)).complete := rfl

/-- Settles O15: the written value is `exec_xorLiteral`'s, its digits are the XOR's, and the truncation is the step in the
last cell. -/
theorem xorLiteralFlipsLowBitsOfB : Obligations.XorLiteralFlipsLowBitsOfB := by
  unfold Obligations.XorLiteralFlipsLowBitsOfB
  intro s
  refine ⟨fun _ => rfl, fun k => ⟨_, exec_xorLiteral k s, rfl, xorNat_div_eight k.isLt, ?zero, ?seven, ?fromZero⟩,
    fun hs _ hip => step_of_last (s.enabled_iff.2 hs) hip⟩
  case zero =>
    rintro rfl
    exact Nat.xor_zero s.b
  case seven =>
    rintro rfl
    exact xorNat_seven_mod_eight s.b
  case fromZero =>
    intro hb
    rw [hb]
    exact Nat.zero_xor k.toNat

/-! ### Modulo (42_bitwise R112) -/

theorem exec_modulo_ok {k : Combo} {s : State} {v : Nat} (h : Combo.resolve k s = .ok v) :
    exec (.modulo k) s = .next (s.writeReg .B (mod8 v)).complete := execModulo_ok h

theorem exec_modulo_ofCode {k : ProgCell} (s : State) (h : k ≠ 7) :
    exec (.modulo (Combo.ofCode k)) s = .next (s.writeReg .B (Spec.comboValue k s % 8)).complete :=
  exec_modulo_ok (Combo.resolve_ofCode_ok s h)

/-- The operand cells 0 to 3 name themselves (30_encoding R64). -/
theorem comboValue_of_le_three {k : ProgCell} (s : State) (h : k.toNat ≤ 3) : Spec.comboValue k s = k.toNat :=
  if_pos h

theorem exec_modulo_digit {k : ProgCell} (s : State) (h : k.toNat ≤ 3) :
    exec (.modulo (Combo.ofCode k)) s = .next (s.writeReg .B k.toNat).complete := by
  have hk : k ≠ 7 := by
    rintro rfl
    exact absurd h (by decide)
  rw [exec_modulo_ofCode s hk, comboValue_of_le_three s h, Nat.mod_eq_of_lt k.isLt]

/-- Settles O16: the valid forms by `exec_modulo_ofCode`, the operands 0 to 3 as their own low digit, the reserved operand
as an ill-formed instruction, and the truncation as the step in the last cell. -/
theorem moduloKeepsLowThreeBits : Obligations.ModuloKeepsLowThreeBits := by
  unfold Obligations.ModuloKeepsLowThreeBits
  intro s
  exact ⟨fun _ => rfl, fun _ hk => ⟨_, exec_modulo_ofCode s hk, rfl, mod8_lt _⟩, fun _ => exec_modulo_digit s,
    exec_modulo_ok (Combo.resolve_reg .B s), exec_of_illFormed s (i := .modulo .reserved) rfl,
    fun hs _ hip => step_of_last (s.enabled_iff.2 hs) hip⟩

end Sys2Proof.Machine

/-! SUPPORT. The statements of 43_control R120 to R123: where ip goes, and how a run ends.

A completed step (STATE = ACTIVE) adds 2 to ip or runs a taken jump. A step goes on in ACTIVE with CAUSE kept, halts past
the end, or raises a fault inside the program; so a run whose first state has CAUSE = NONE keeps it until it ends, and its
last step is one of the other two. -/

namespace Sys2Proof.Machine

/-! ### JumpIfNonzero (43_control R121) -/

theorem exec_jumpIfNonzero (k : ProgCell) (s : State) :
    exec (.jumpIfNonzero k) s = .next (s.setIp (if s.a ≠ 0 then k.toNat else s.ip + 2)).activate := by
  by_cases ha : s.a = 0
  · rw [(ExecCase.notTaken k rfl ha).exec_eq, if_neg (not_not.2 ha)]
    rfl
  · rw [(ExecCase.taken k rfl ha).exec_eq, if_pos ha]

/-- Settles O18: the next state is `exec_jumpIfNonzero`'s; after a taken jump the step at the target, and the jump's own
fault, are the steps past the end and in the last cell. -/
theorem jumpIfNonzeroSetsIp : Obligations.JumpIfNonzeroSetsIp := by
  unfold Obligations.JumpIfNonzeroSetsIp
  intro s
  refine ⟨fun _ => rfl, fun k => exec_jumpIfNonzero k s, fun k t ha hx => ?target,
    fun hs _ hip => step_of_last (s.enabled_iff.2 hs) hip⟩
  case target =>
    rw [exec_jumpIfNonzero, if_pos ha] at hx
    cases hx
    have he : (s.setIp k.toNat).activate.enabled = true := rfl
    exact ⟨step_of_pastEnd he, step_of_last he⟩

/-! ### Where a completed step leaves ip (43_control R120, R122) -/

theorem ExecCase.ip_of_active {i : Instr} {s t : State} (h : ExecCase i s t) (ht : t.runState = .active) :
    t.ip = s.ip + 2 ∨ ∃ k : ProgCell, i = .jumpIfNonzero k ∧ s.a ≠ 0 ∧ t.ip = k.toNat := by
  cases h with
  | reg r v hw hr => exact .inl (by simp)
  | notTaken k hi ha => exact .inl rfl
  | output k v hi hk hv hf => exact .inl rfl
  | taken k hi ha => exact .inr ⟨k, hi, ha, rfl⟩
  | decodeError hw => cases ht
  | overflow k hi hk hf => cases ht

/-- A step that completes and was not a taken jump adds 2 to ip. -/
theorem StepCase.ip_of_active {s t : State} (h : StepCase s t) (ht : t.runState = .active) :
    t.ip = s.ip + 2 ∨
      ∃ k : ProgCell, s.pm[s.ip]? = some 3 ∧ s.pm[s.ip + 1]? = some k ∧ s.a ≠ 0 ∧ t.ip = k.toNat := by
  cases h with
  | halt hip => cases ht
  | truncated hip => cases ht
  | instr op k hop hk hx hc =>
    obtain hip | ⟨j, hi, ha, hip⟩ := hc.ip_of_active ht
    · exact .inl hip
    · obtain ⟨rfl, rfl⟩ := decodePair_eq_jumpIfNonzero hi
      exact .inr ⟨k, hop, hk, ha, hip⟩

/-- Settles O19: the taken jump of `StepCase.ip_of_active` is excluded, the pair at the old ip lies inside the program,
and at L the next step is the one past the end. -/
theorem otherInstructionsAdvanceByTwo : Obligations.OtherInstructionsAdvanceByTwo := by
  unfold Obligations.OtherInstructionsAdvanceByTwo
  intro s t op k hop hk hjump hst ht
  have hip : t.ip = s.ip + 2 := by
    obtain hip | ⟨-, h3, -, ha, -⟩ := (StepCase.of_step hst).ip_of_active ht
    · exact hip
    · exact absurd (hjump (Option.some.inj (hop.symm.trans h3))) ha
  have hin : t.ip ≤ t.pm.length := by
    rw [hip, (step_pm_cfg_eq hst).1]
    exact ip_lt_of_cells hk
  exact ⟨hip, hin, fun hend => step_of_pastEnd (t.enabled_iff.2 (.inr ht)) hend.ge⟩

/-- Settles O20: by `StepCase.ip_of_active` the step was a taken jump, and a cell is at most 7. -/
theorem onlyTakenJumpRedirects : Obligations.OnlyTakenJumpRedirects := by
  unfold Obligations.OnlyTakenJumpRedirects
  intro s t hst ht hne
  obtain hip | ⟨k, hop, hk, ha, hip⟩ := (StepCase.of_step hst).ip_of_active ht
  · exact absurd hip hne
  · exact ⟨k, hop, hk, ha, hip, hip.trans_le (Nat.le_of_lt_succ k.isLt)⟩

/-! ### How a step ends (40_execute_cycle R82 to R88) -/

theorem State.not_ready_iff (s : State) : ¬ Spec.ready s ↔ s.enabled = false := by
  rw [Spec.ready, ← s.enabled_iff, Bool.not_eq_true]

/-- An instruction completes with CAUSE kept, or raises DecodeError or OutputOverflow. -/
theorem ExecCase.active_or_raise {i : Instr} {s t : State} (h : ExecCase i s t) :
    (t.runState = .active ∧ t.cause = s.cause) ∨ t = s.raise .decodeError ∨ t = s.raise .outputOverflow := by
  cases h with
  | reg r v hw hr => exact .inl (by simp)
  | taken k hi ha => exact .inl ⟨rfl, rfl⟩
  | notTaken k hi ha => exact .inl ⟨rfl, rfl⟩
  | output k v hi hk hv hf => exact .inl ⟨rfl, rfl⟩
  | decodeError hw => exact .inr (.inl rfl)
  | overflow k hi hk hf => exact .inr (.inr rfl)

/-- A step goes on in ACTIVE with CAUSE kept, halts past the end, or raises one of the causes inside the program. -/
theorem StepCase.active_or_halt_or_raise {s t : State} (h : StepCase s t) :
    (t.runState = .active ∧ t.cause = s.cause) ∨ (t = s.halt ∧ s.pm.length ≤ s.ip) ∨
      ∃ c ∈ [Cause.decodeError, .unknownOpcode, .truncatedInstruction, .outputOverflow],
        t = s.raise c ∧ s.ip < s.pm.length := by
  cases h with
  | halt hip => exact .inr (.inl ⟨rfl, hip⟩)
  | truncated hip => exact .inr (.inr ⟨_, by simp, rfl, by omega⟩)
  | instr op k hop hk hx hc =>
    have hin : s.ip < s.pm.length := Nat.lt_of_succ_lt (ip_lt_of_cells hk)
    obtain hact | ht | ht := hc.active_or_raise
    · exact .inl hact
    · exact .inr (.inr ⟨_, by simp, ht, hin⟩)
    · exact .inr (.inr ⟨_, by simp, ht, hin⟩)

theorem StepCase.cause_eq_of_enabled {s t : State} (h : StepCase s t) (ht : t.enabled = true) : t.cause = s.cause := by
  obtain ⟨-, hc⟩ | ⟨rfl, -⟩ | ⟨c, -, rfl, -⟩ := h.active_or_halt_or_raise
  · exact hc
  · cases ht
  · cases ht

/-! ### Runs that end (43_control R123) -/

theorem State.Inv.cause_eq_none {s : State} (h : s.Inv) (hs : Spec.ready s) : s.cause = .none := by
  by_contra hne
  have hfaulted : s.runState = .faulted := h.cause_iff.1 hne
  simp [Spec.ready, hfaulted] at hs

/-- From CAUSE = NONE a run has CAUSE = NONE for as long as the machine has a step. -/
theorem Runs.cause_none {s t : State} (h : Runs s t) (hs : s.cause = .none) (ht : t.enabled = true) :
    t.cause = .none := by
  refine h.keeps (P := fun u => u.enabled = true → u.cause = .none) ?_ (fun _ => hs) ht
  intro u v hu huv hv
  rw [(StepCase.of_step huv).cause_eq_of_enabled hv]
  exact hu (enabled_of_step huv)

/-- A run that has ended has a last step. -/
theorem Runs.exists_last_step {s t : State} (h : Runs s t) (hs : s.enabled = true) (ht : t.enabled = false) :
    ∃ u, Runs s u ∧ step u = .next t := by
  obtain rfl | ⟨u, hu, hut⟩ := Relation.ReflTransGen.cases_tail h
  · cases hs.symm.trans ht
  · exact ⟨u, hu, hut⟩

/-- A terminal state runs to itself only (40_execute_cycle R81). -/
theorem Runs.eq_of_terminal {s t : State} (h : Runs s t) (hs : s.enabled = false) : t = s := by
  obtain rfl | ⟨u, hu, -⟩ := Relation.ReflTransGen.cases_head h
  · rfl
  · cases hs.symm.trans (enabled_of_step hu)

theorem stepsTo_rightUnique : Relator.RightUnique StepsTo := fun _ _ _ ht hu =>
  Host.Outcome.next.inj (ht.symm.trans hu)

/-- The machine is deterministic, so a run has at most one terminal state. -/
theorem Runs.terminal_unique {s t u : State} (hst : Runs s t) (hsu : Runs s u) (ht : t.enabled = false)
    (hu : u.enabled = false) : u = t := by
  obtain htu | hut := Relation.ReflTransGen.total_of_right_unique stepsTo_rightUnique hst hsu
  · exact Runs.eq_of_terminal htu ht
  · exact (Runs.eq_of_terminal hut hu).symm

/-- Settles O42: the run has a last step, which halts or raises by `StepCase.active_or_halt_or_raise`; before it CAUSE is
still NONE, as the invariant has it in a machine with a step; and `Runs.terminal_unique` gives the one final state. -/
theorem runEndsInExactlyOneWay : Obligations.RunEndsInExactlyOneWay := by
  unfold Obligations.RunEndsInExactlyOneWay
  intro s t hinv hs hst ht
  rw [State.not_ready_iff] at ht
  refine ⟨?ending, fun u hsu hu => hst.terminal_unique hsu ht (u.not_ready_iff.1 hu)⟩
  case ending =>
    obtain ⟨u, hsu, hut⟩ := hst.exists_last_step (s.enabled_iff.2 hs) ht
    have hu : u.enabled = true := enabled_of_step hut
    obtain ⟨hact, -⟩ | ⟨rfl, hip⟩ | ⟨c, hc, rfl, hip⟩ := (StepCase.of_step hut).active_or_halt_or_raise
    · cases ht.symm.trans (t.enabled_iff.2 (.inr hact))
    · exact .inl ⟨u, hsu, u.enabled_iff.1 hu, rfl, hip, hsu.cause_none (hinv.cause_eq_none hs) hu, rfl⟩
    · exact .inr ⟨u, hsu, u.enabled_iff.1 hu, rfl, hc, hip, rfl⟩

end Sys2Proof.Machine

/-! SUPPORT. The statement of 44_output R131: Output.

Once its operand resolves, Output splits on one question, whether the accumulator is full. A reserved operand never gets
as far as that question, so it faults alike on both sides of it. -/

namespace Sys2Proof.Machine

/-! ### The capacity test (44_output R132) -/

theorem State.outFull_iff (s : State) : s.outFull = true ↔ s.cfg.outCap = some s.out.length := by
  unfold State.outFull
  cases s.cfg.outCap with
  | none => simp
  | some n => simp [eq_comm]

/-! ### Output where its operand resolves (44_output R131, R132) -/

theorem exec_output_ofCode {k : ProgCell} (s : State) (h : k ≠ 7) :
    exec (.output (Combo.ofCode k)) s =
      if s.outFull then .next (s.raise .outputOverflow)
      else .next (s.append (toDigit (Spec.comboValue k s))).complete :=
  execOutput_ok (Combo.resolve_ofCode_ok s h)

theorem exec_output_of_room {k : ProgCell} {s : State} (h : k ≠ 7) (hroom : s.cfg.outCap ≠ some s.out.length) :
    exec (.output (Combo.ofCode k)) s = .next (s.append (toDigit (Spec.comboValue k s))).complete := by
  rw [exec_output_ofCode s h, if_neg (mt s.outFull_iff.1 hroom)]

theorem exec_output_of_full {k : ProgCell} {s : State} (h : k ≠ 7) (hfull : s.cfg.outCap = some s.out.length) :
    exec (.output (Combo.ofCode k)) s = .next (s.raise .outputOverflow) := by
  rw [exec_output_ofCode s h, if_pos (s.outFull_iff.2 hfull)]

/-- Settles O22: `exec_output_of_room` and `exec_output_of_full` on the two sides of the capacity, the appended digit being
`toDigit`'s; the reserved operand as an ill-formed instruction, and the truncation as the step in the last cell. -/
theorem outputAppendsOneDigit : Obligations.OutputAppendsOneDigit := by
  unfold Obligations.OutputAppendsOneDigit
  intro s
  exact ⟨fun _ => rfl, fun _ hk hroom => ⟨_, toDigit_toNat _, exec_output_of_room hk hroom⟩,
    fun _ => exec_output_of_full, exec_of_illFormed s (i := .output .reserved) rfl,
    fun hs _ hip => step_of_last (s.enabled_iff.2 hs) hip⟩

end Sys2Proof.Machine

/-! SUPPORT. The statement of 60_exceptions R141: DecodeError.

A pair that completes keeps CAUSE and a full accumulator raises OutputOverflow, so from CAUSE = NONE only the ill-formed
pairs end in DecodeError: a combo-mode opcode with the operand cell 7. -/

namespace Sys2Proof.Machine

/-! ### The steps that end in DecodeError (60_exceptions R141) -/

theorem ExecCase.illFormed_of_cause {i : Instr} {s t : State} (h : ExecCase i s t) (hs : s.cause = .none)
    (ht : t.cause = .decodeError) : i.wellFormed = false := by
  obtain ⟨-, hc⟩ | rfl | rfl := h.active_or_raise
  · cases hs.symm.trans (hc.symm.trans ht)
  · exact h.illFormed_of_decodeError rfl rfl
  · cases ht

theorem StepCase.illFormed_of_cause {s t : State} (h : StepCase s t) (hs : s.cause = .none)
    (ht : t.cause = .decodeError) :
    ∃ op k : ProgCell, s.pm[s.ip]? = some op ∧ s.pm[s.ip + 1]? = some k ∧ (decodePair op k).wellFormed = false := by
  cases h with
  | halt hip => cases hs.symm.trans ht
  | truncated hip => cases ht
  | instr op k hop hk hx hc => exact ⟨op, k, hop, hk, hc.illFormed_of_cause hs ht⟩

theorem step_of_illFormed {s : State} {op k : ProgCell} (h : s.enabled = true) (hop : s.pm[s.ip]? = some op)
    (hk : s.pm[s.ip + 1]? = some k) (hw : (decodePair op k).wellFormed = false) :
    step s = .next (s.raise .decodeError) :=
  (step_of_cells h hop hk).trans (exec_of_illFormed s hw)

/-- Settles O31: a step that ends in DecodeError ran an ill-formed pair by `StepCase.illFormed_of_cause`, and by
`step_of_illFormed` each such pair does; `decodePair_illFormed_iff` names those pairs. -/
theorem decodeErrorExactlyOnComboSeven : Obligations.DecodeErrorExactlyOnComboSeven := by
  unfold Obligations.DecodeErrorExactlyOnComboSeven
  intro s t hs hst
  constructor
  · intro ht
    obtain ⟨op, k, hop, hk, hw⟩ := (StepCase.of_step hst).illFormed_of_cause hs ht
    obtain ⟨hcombo, rfl⟩ := (decodePair_illFormed_iff op k).1 hw
    exact ⟨op, hop, hk, hcombo⟩
  · rintro ⟨op, hop, hk, hcombo⟩
    have hw : (decodePair op 7).wellFormed = false := (decodePair_illFormed_iff op 7).2 ⟨hcombo, rfl⟩
    cases hst.symm.trans (step_of_illFormed (enabled_of_step hst) hop hk hw)
    rfl

end Sys2Proof.Machine

/-! SUPPORT. The statement of 70_reset_and_hazards R175: an instruction that reads the register it writes. -/

namespace Sys2Proof.Machine

/-- Settles O37: a register operand resolves to its value in the state before the step (`Combo.resolve_reg`), so each
`exec_…_ok` writes a result computed from that state and completes. -/
theorem readsComeBeforeTheWrite : Obligations.ReadsComeBeforeTheWrite := by
  unfold Obligations.ReadsComeBeforeTheWrite
  intro s
  simp only [← quotient_eq_div]
  exact ⟨exec_divA_ok (Combo.resolve_reg .A s), exec_modulo_ok (Combo.resolve_reg .B s),
    exec_divB_ok (Combo.resolve_reg .B s), exec_divC_ok (Combo.resolve_reg .C s)⟩

end Sys2Proof.Machine

/-! SUPPORT. The statements of 40_execute_cycle R90, R91 and 43_control R124: the executor under fuel.

The states of a run are `stateAt s n`, so a run and the executor speak of the same states: the executor answers the state
after n steps and the outcome of that state. -/

namespace Sys2Proof.Machine

/-! ### The executor by its states -/

theorem runFuel_eq_iff {n : Nat} {s t : State} {o : RunOutcome} :
    runFuel n s = (t, o) ↔ stateAt s n = t ∧ runOutcome t = o := by
  rw [Prod.ext_iff, runFuel_outcome]
  constructor
  · rintro ⟨rfl, rfl⟩
    exact ⟨rfl, rfl⟩
  · rintro ⟨rfl, rfl⟩
    exact ⟨rfl, rfl⟩

/-- A run reaches exactly the states after some number of steps (40_execute_cycle R91). -/
theorem runs_iff_exists_stateAt {s t : State} : Runs s t ↔ ∃ n, stateAt s n = t := by
  constructor
  · intro h
    induction h with
    | refl => exact ⟨0, rfl⟩
    | @tail u v _ huv ih =>
      obtain ⟨n, rfl⟩ := ih
      exact ⟨n + 1, Host.Outcome.next.inj ((step_stateAt (enabled_of_step huv)).symm.trans huv)⟩
  · rintro ⟨n, rfl⟩
    exact runFuel_runs n s

theorem stateAt_add (s : State) (m n : Nat) : stateAt s (m + n) = stateAt (stateAt s m) n := by
  rw [stateAt, runFuel_add]
  rfl

theorem runOutcome_eq_halted_iff (s : State) : runOutcome s = .halted ↔ s.runState = .halted := by
  unfold runOutcome State.terminalFault
  cases s.runState <;> simp

theorem runOutcome_eq_fault_iff (s : State) (c : Cause) :
    runOutcome s = .fault c ↔ s.runState = .faulted ∧ s.cause = c := by
  unfold runOutcome State.terminalFault
  cases s.runState <;> simp

/-- Settles O43: a run's end and the executor's answer are both facts about the outcome of some `stateAt s n`; an answer
other than outOfFuel is a terminal state's, where `runFuel_terminal` stops whatever fuel is left. -/
theorem executorAgreesWithRuns : Obligations.ExecutorAgreesWithRuns := by
  unfold Obligations.ExecutorAgreesWithRuns
  intro s t
  simp only [runFuel_eq_iff, exists_and_right, ← runs_iff_exists_stateAt, runOutcome_eq_halted_iff,
    runOutcome_eq_fault_iff, and_true]
  refine ⟨.rfl, .rfl, ?unfinished, ?moreFuel⟩
  case unfinished =>
    rintro n ⟨rfl, ho⟩
    exact ⟨runFuel_runs n s, (State.enabled_iff _).1 ((runOutcome_outOfFuel _).1 ho)⟩
  case moreFuel =>
    rintro n m o ⟨rfl, rfl⟩ ho
    have hterminal : (stateAt s n).enabled = false :=
      Bool.eq_false_iff.2 fun he => ho ((runOutcome_outOfFuel _).2 he)
    exact ⟨by rw [stateAt_add, stateAt, runFuel_terminal hterminal], rfl⟩

/-! ### A jump to its own index (43_control R124) -/

theorem step_of_self_jump {s : State} {k : ProgCell} (h : s.enabled = true) (hop : s.pm[s.ip]? = some 3)
    (hk : s.pm[s.ip + 1]? = some k) (hself : k.toNat = s.ip) (ha : s.a ≠ 0) : step s = .next s.activate := by
  rw [step_of_taken_jump h hop hk ha, hself]
  rfl

/-- A state that steps to itself stays under any fuel. -/
theorem runFuel_of_step_self {s : State} (h : step s = .next s) (n : Nat) : runFuel n s = (s, .outOfFuel) := by
  induction n with
  | zero => rw [runFuel_zero, (runOutcome_outOfFuel s).2 (enabled_of_step h)]
  | succ n ih => rw [runFuel_succ h, ih]

/-- Settles O44: the jump leads to the same state in ACTIVE, and from there to itself. -/
theorem jumpToItselfRunsForever : Obligations.JumpToItselfRunsForever := by
  unfold Obligations.JumpToItselfRunsForever
  intro s k hs hop hk hself ha n
  rw [runFuel_succ (step_of_self_jump (s.enabled_iff.2 hs) hop hk hself ha)]
  exact runFuel_of_step_self (s := s.activate) (step_of_self_jump rfl hop hk hself ha) n

end Sys2Proof.Machine

/-! SUPPORT. The statements of 41_division R100 and 43_control R125: how division shortens A, and when a run ends.

Between backward jumps ip grows, so a run of n steps has n at most L times its backward jumps plus its ip. A never
increases, and a DivA with a combo value of at least 1 shortens it; so where one lies between every two backward jumps,
each of these jumps uses up a bit of A. -/

namespace Sys2Proof.Machine

/-! ### Bit lengths (00_scope R11, 41_division R100) -/

theorem bitlen_mono {a b : Nat} (h : a ≤ b) : bitlen a ≤ bitlen b :=
  (bitlen_le a _).2 (h.trans_lt ((bitlen_le b _).1 le_rfl))

theorem bitlen_pos {a : Nat} (h : a ≠ 0) : 0 < bitlen a := by
  rw [bitlen, if_neg h]
  exact Nat.succ_pos _

theorem bitlen_quotient (a v : Nat) : bitlen (quotient a v) = bitlen a - v := by
  refine eq_of_forall_ge_iff fun W => ?_
  calc bitlen (quotient a v) ≤ W
    _ ↔ a / 2 ^ v < 2 ^ W := by rw [bitlen_le, quotient_eq_div]
    _ ↔ a < 2 ^ (W + v) := by rw [Nat.div_lt_iff_lt_mul (Nat.two_pow_pos v), Nat.pow_add]
    _ ↔ bitlen a - v ≤ W := by rw [← bitlen_le, Nat.sub_le_iff_le_add]

theorem quotient_eq_zero {a v : Nat} (h : bitlen a ≤ v) : quotient a v = 0 := by
  rw [quotient_eq_div, Nat.div_eq_of_lt ((bitlen_le a v).1 h)]

/-- Settles O9: `quotient_eq_div` and its corollaries, the bit length by `bitlen_quotient`. -/
theorem quotientIsFloorOfDivision : Obligations.QuotientIsFloorOfDivision := by
  unfold Obligations.QuotientIsFloorOfDivision
  exact fun a v => ⟨quotient_eq_div a v, quotient_eq_zero, quotient_zero a, quotient_le a v, bitlen_quotient a v⟩

/-! ### A never increases (43_control R125, 10_state R23) -/

/-- A's only writer is DivA. -/
theorem regEffect_A {i : Instr} {s : State} {v : Nat} (h : regEffect i s = some (.A, v)) :
    ∃ k u, i = .divA k ∧ Combo.resolve k s = .ok u ∧ v = quotient s.a u := by
  have hw := writes_of_regEffect h
  cases i with
  | divA k =>
    obtain ⟨-, u, hu⟩ | ⟨rfl, -⟩ := Combo.resolve_cases k s
    · exact ⟨k, u, rfl, hu, by simpa [regEffect, hu, Except.toOption] using h.symm⟩
    · cases h
  | xorLiteral k => cases hw
  | modulo k => cases hw
  | jumpIfNonzero k => cases hw
  | xorRegisters k => cases hw
  | output k => cases hw
  | divB k => cases hw
  | divC k => cases hw

theorem ExecCase.a_le {i : Instr} {s t : State} (h : ExecCase i s t) : t.a ≤ s.a := by
  cases h with
  | reg r v hw hr =>
    by_cases hA : r = .A
    · subst hA
      obtain ⟨k, u, -, -, rfl⟩ := regEffect_A hr
      exact quotient_le s.a u
    · exact (s.writeReg_a_of_ne v hA).le
  | decodeError hw => exact le_rfl
  | taken k hi ha => exact le_rfl
  | notTaken k hi ha => exact le_rfl
  | output k v hi hk hv hf => exact le_rfl
  | overflow k hi hk hf => exact le_rfl

theorem StepCase.a_le {s t : State} (h : StepCase s t) : t.a ≤ s.a := by
  cases h with
  | halt hip => exact le_rfl
  | truncated hip => exact le_rfl
  | instr op k hop hk hx hc => exact hc.a_le

/-- Settles O45: every step keeps A from growing, and so does every run. -/
theorem registerANeverIncreases : Obligations.RegisterANeverIncreases := by
  unfold Obligations.RegisterANeverIncreases
  exact fun s t h => h.relates (R := fun u v => v.a ≤ u.a) (fun _ => le_rfl) (fun _ _ _ huv hvw => hvw.trans huv)
    fun _ _ hst => (StepCase.of_step hst).a_le

theorem stateAt_a_le (s : State) {m n : Nat} (h : m ≤ n) : (stateAt s n).a ≤ (stateAt s m).a := by
  obtain ⟨d, rfl⟩ := Nat.exists_eq_add_of_le h
  rw [stateAt_add]
  exact registerANeverIncreases _ _ (runFuel_runs d _)

/-! ### The next instruction and the step that runs it -/

theorem enabled_of_nextInstr {s : State} {i : Instr} (h : nextInstr s = some i) : s.enabled = true :=
  ((nextInstr_eq_some s i).1 h).1

theorem ip_lt_of_nextInstr {s : State} {i : Instr} (h : nextInstr s = some i) : s.ip + 1 < s.pm.length := by
  obtain ⟨-, op, k, -, hk, -⟩ := (nextInstr_eq_some s i).1 h
  exact ip_lt_of_cells hk

theorem step_of_nextInstr {s : State} {i : Instr} (h : nextInstr s = some i) : step s = exec i s := by
  obtain ⟨he, op, k, hop, hk, rfl⟩ := (nextInstr_eq_some s i).1 h
  exact step_of_cells he hop hk

theorem backwardJump_iff (s : State) :
    backwardJump s = true ↔ ∃ k, nextInstr s = some (.jumpIfNonzero k) ∧ s.a ≠ 0 ∧ literal k ≤ s.ip := by
  unfold backwardJump
  split
  · next k h => simp [h]
  · next h => exact ⟨fun hf => by simp at hf, fun ⟨k, hk, _⟩ => absurd hk (h k)⟩

theorem shrinksA_iff (s : State) :
    shrinksA s = true ↔ ∃ k v, nextInstr s = some (.divA k) ∧ Combo.resolve k s = .ok v ∧ 1 ≤ v := by
  unfold shrinksA
  split
  · next k h =>
    cases hk : Combo.resolve k s with
    | ok v => simp [h, hk]
    | error c => simp [h, hk]
  · next h => exact ⟨fun hf => by simp at hf, fun ⟨k, _, hk, _⟩ => absurd hk (h k)⟩

/-- A shrinking step takes at least one bit off A. -/
theorem bitlen_a_of_shrinksA {s t : State} (h : shrinksA s = true) (hst : step s = .next t) :
    bitlen t.a ≤ bitlen s.a - 1 := by
  obtain ⟨k, v, hk, hv, hpos⟩ := (shrinksA_iff s).1 h
  rw [step_of_nextInstr hk, exec_divA_ok hv] at hst
  cases hst
  have ha : bitlen (quotient s.a v) = bitlen s.a - v := bitlen_quotient s.a v
  rw [State.complete_a, State.writeReg_A_a]
  omega

/-! ### Counting steps -/

theorem countSteps_succ_of_true {p : State → Bool} {s : State} {n : Nat} (h : p (stateAt s n) = true) :
    countSteps p s (n + 1) = countSteps p s n + 1 := by
  rw [countSteps_succ, if_pos h]

theorem countSteps_succ_of_false {p : State → Bool} {s : State} {n : Nat} (h : p (stateAt s n) = false) :
    countSteps p s (n + 1) = countSteps p s n := by
  rw [countSteps_succ, h]
  rfl

theorem countSteps_eq_zero {p : State → Bool} {s : State} {n : Nat} (h : ∀ m < n, p (stateAt s m) = false) :
    countSteps p s n = 0 := by
  induction n with
  | zero => rfl
  | succ n ih => rw [countSteps_succ_of_false (h n n.lt_succ_self), ih fun m hm => h m (Nat.lt_succ_of_lt hm)]

/-- Among the first n states there is none with p, or a last one, which is the only one the count gains from there on. -/
theorem countSteps_last (p : State → Bool) (s : State) (n : Nat) :
    countSteps p s n = 0 ∨ ∃ i < n, p (stateAt s i) = true ∧ countSteps p s n = countSteps p s i + 1 := by
  induction n with
  | zero => exact .inl rfl
  | succ n ih =>
    cases hp : p (stateAt s n) with
    | true => exact .inr ⟨n, n.lt_succ_self, hp, countSteps_succ_of_true hp⟩
    | false =>
      rw [countSteps_succ_of_false hp]
      obtain h0 | ⟨i, hi, hpi, hcount⟩ := ih
      · exact .inl h0
      · exact .inr ⟨i, Nat.lt_succ_of_lt hi, hpi, hcount⟩

/-! ### Steps between backward jumps (43_control R125) -/

/-- A step that goes on and is no backward jump moves ip up. -/
theorem ip_lt_of_step {s t : State} (hst : step s = .next t) (ht : t.enabled = true)
    (hback : backwardJump s = false) : s.ip < t.ip := by
  have hactive : t.runState = .active := by
    obtain ⟨hactive, -⟩ | ⟨rfl, -⟩ | ⟨c, -, rfl, -⟩ := (StepCase.of_step hst).active_or_halt_or_raise
    · exact hactive
    · cases ht
    · cases ht
  obtain hip | ⟨k, hop, hk, ha, hip⟩ := (StepCase.of_step hst).ip_of_active hactive
  · omega
  · have hnext : nextInstr s = some (.jumpIfNonzero k) :=
      (nextInstr_eq_some s _).2 ⟨enabled_of_step hst, 3, k, hop, hk, rfl⟩
    have hforward : ¬ k.toNat ≤ s.ip := fun hle =>
      absurd ((backwardJump_iff s).2 ⟨k, hnext, ha, hle⟩) (by simp [hback])
    omega

theorem stateAt_pm (s : State) (n : Nat) : (stateAt s n).pm = s.pm := (runFuel_runs n s).pm_cfg_eq.1

theorem enabled_stateAt_of_succ {s : State} {n : Nat} (h : (stateAt s (n + 1)).enabled = true) :
    (stateAt s n).enabled = true := by
  by_contra hn
  rw [stateAt_succ_terminal (Bool.not_eq_true _ ▸ hn)] at h
  exact hn h

/-- While the machine runs, n steps need n ≤ L times the backward jumps so far, plus ip: each step other than a backward
jump moves ip up, and a backward jump starts from an ip below L. -/
theorem steps_le_of_enabled {s : State} {n : Nat} (h : (stateAt s n).enabled = true) :
    n ≤ countSteps backwardJump s n * s.pm.length + (stateAt s n).ip := by
  induction n with
  | zero => exact Nat.zero_le _
  | succ n ih =>
    have hn := enabled_stateAt_of_succ h
    have ih := ih hn
    cases hback : backwardJump (stateAt s n) with
    | false =>
      have hip := ip_lt_of_step (step_stateAt hn) h hback
      rw [countSteps_succ_of_false hback]
      omega
    | true =>
      obtain ⟨k, hk, -⟩ := (backwardJump_iff _).1 hback
      have hip := ip_lt_of_nextInstr hk
      rw [stateAt_pm] at hip
      rw [countSteps_succ_of_true hback, Nat.add_one_mul]
      omega

/-- The segment bound: from one backward jump to the next there are fewer than L steps. -/
theorem sub_lt_of_consecutive_jumps {s : State} {i j : Nat} (hij : i < j) (hj : backwardJump (stateAt s j) = true)
    (hbetween : ∀ m, i < m → m < j → backwardJump (stateAt s m) = false) : j - i < s.pm.length := by
  obtain ⟨d, rfl⟩ := Nat.exists_eq_add_of_le (Nat.succ_le_of_lt hij)
  rw [stateAt_add] at hj
  have hcount : countSteps backwardJump (stateAt s (i + 1)) d = 0 := by
    refine countSteps_eq_zero fun m hm => ?_
    rw [← stateAt_add]
    exact hbetween _ (by omega) (by omega)
  obtain ⟨k, hk, -⟩ := (backwardJump_iff _).1 hj
  have hsteps := steps_le_of_enabled (enabled_of_nextInstr hk)
  have hip := ip_lt_of_nextInstr hk
  rw [hcount] at hsteps
  rw [stateAt_pm, stateAt_pm] at hip
  omega

/-! ### Backward jumps under the shrinking condition (43_control R125) -/

/-- Between every two backward jumps of the run from `s` a DivA with a combo value of at least 1 executes. -/
def ShrinksBetweenJumps (s : State) : Prop :=
  ∀ i j : Nat, i < j → backwardJump (stateAt s i) = true → backwardJump (stateAt s j) = true →
    ∃ m, i < m ∧ m < j ∧ shrinksA (stateAt s m) = true

theorem bitlen_stateAt_lt_of_shrinks {s : State} {i m n : Nat} (him : i < m) (hmn : m < n)
    (hshrink : shrinksA (stateAt s m) = true) (ha : (stateAt s i).a ≠ 0) :
    bitlen (stateAt s n).a < bitlen (stateAt s i).a := by
  obtain ⟨k, -, hk, -⟩ := (shrinksA_iff _).1 hshrink
  have hbit := bitlen_a_of_shrinksA hshrink (step_stateAt (enabled_of_nextInstr hk))
  have hbefore := bitlen_mono (stateAt_a_le s him.le)
  have hafter := bitlen_mono (stateAt_a_le s (m := m + 1) hmn)
  have hpos := bitlen_pos ha
  omega

theorem a_ne_zero_of_backwardJump {s : State} (h : backwardJump s = true) : s.a ≠ 0 := by
  obtain ⟨k, -, ha, -⟩ := (backwardJump_iff s).1 h
  exact ha

/-- At a backward jump, the backward jumps before it have used up a bit of A each. -/
theorem count_add_bitlen_le_at_jump {s : State} (hs : ShrinksBetweenJumps s) (n : Nat)
    (hn : backwardJump (stateAt s n) = true) :
    countSteps backwardJump s n + bitlen (stateAt s n).a ≤ bitlen s.a := by
  induction n using Nat.strong_induction_on with
  | _ n ih =>
    obtain h0 | ⟨i, hin, hi, hcount⟩ := countSteps_last backwardJump s n
    · have ha : bitlen (stateAt s n).a ≤ bitlen s.a := bitlen_mono (stateAt_a_le s (Nat.zero_le n))
      omega
    · obtain ⟨m, him, hmn, hm⟩ := hs i n hin hi hn
      have hlt := bitlen_stateAt_lt_of_shrinks him hmn hm (a_ne_zero_of_backwardJump hi)
      have hi := ih i hin hi
      omega

/-- At most bitlen A0 backward jumps happen, one fewer than the rule allows. -/
theorem count_backwardJump_le {s : State} (hs : ShrinksBetweenJumps s) (n : Nat) :
    countSteps backwardJump s n ≤ bitlen s.a := by
  obtain h0 | ⟨i, -, hi, hcount⟩ := countSteps_last backwardJump s n
  · omega
  · have hle := count_add_bitlen_le_at_jump hs i hi
    have hpos := bitlen_pos (a_ne_zero_of_backwardJump hi)
    omega

/-- While the machine runs after one more step, its ip is inside the program. -/
theorem ip_lt_of_enabled_succ {s : State} {n : Nat} (h : (stateAt s (n + 1)).enabled = true) :
    (stateAt s n).ip < s.pm.length := by
  have hst := step_stateAt (enabled_stateAt_of_succ h)
  by_contra hip
  rw [← stateAt_pm s n, Nat.not_lt] at hip
  rw [Host.Outcome.next.inj (hst.symm.trans (step_of_pastEnd (enabled_of_step hst) hip))] at h
  cases h

/-- Settles O46: the segment bound is `sub_lt_of_consecutive_jumps`; under the shrinking condition the backward jumps are
bounded by `count_backwardJump_le`, and `steps_le_of_enabled` turns that into a bound on the steps. -/
theorem runThatShrinksAEnds : Obligations.RunThatShrinksAEnds := by
  unfold Obligations.RunThatShrinksAEnds
  intro s
  refine ⟨fun i j hij _ hj hbetween => ?segment, fun hs => ⟨fun n => ?jumps, fun hfuel => ?ends⟩⟩
  case segment => exact (sub_lt_of_consecutive_jumps hij hj hbetween).le.trans (le_max_left _ _)
  case jumps => exact (count_backwardJump_le hs n).trans (Nat.le_succ _)
  case ends =>
    generalize hN : (bitlen s.a + 2) * max s.pm.length 8 = N at hfuel
    rw [runFuel_outcome, runOutcome_outOfFuel] at hfuel
    have hcount := count_backwardJump_le hs N
    have hip : (stateAt s N).ip < s.pm.length := ip_lt_of_enabled_succ hfuel
    have hsteps : N < N := calc
      N ≤ countSteps backwardJump s N * s.pm.length + (stateAt s N).ip :=
        steps_le_of_enabled (enabled_stateAt_of_succ hfuel)
      _ < bitlen s.a * s.pm.length + s.pm.length := Nat.add_lt_add_of_le_of_lt (Nat.mul_le_mul_right _ hcount) hip
      _ = (bitlen s.a + 1) * s.pm.length := (Nat.succ_mul _ _).symm
      _ ≤ (bitlen s.a + 2) * max s.pm.length 8 := Nat.mul_le_mul (Nat.le_succ _) (le_max_left _ _)
      _ = N := hN
    exact absurd hsteps (lt_irrefl N)

end Sys2Proof.Machine

/-! SUPPORT. The statements of 30_encoding R61, R68, R70 and R71: cells, table words and programs.

`decodePair_encode` and `encode_decodePair` say that a pair and its instruction determine each other; the word of a pair
and the cells of a program inherit it. In the memory that encodes a program, the n-th instruction stands at index 2n. -/

namespace Sys2Proof

/-! ### Table words (30_encoding R61) -/

theorem wordOpcode_pairWord (op k : ProgCell) : wordOpcode 8 (pairWord op k) = op.toNat := by
  have hlt : pairWord op k < 2 ^ 8 := (pairWord_lt op k).trans (by decide)
  rw [wordOpcode, Nat.mod_eq_of_lt hlt, pairWord_div]

theorem wordOperand_pairWord (op k : ProgCell) : wordOperand 8 (pairWord op k) = k.toNat := by
  have hlt : pairWord op k < 2 ^ 8 := (pairWord_lt op k).trans (by decide)
  rw [wordOperand, Nat.mod_eq_of_lt hlt, pairWord_mod]

/-- Every number of 6 bits is the word of a pair. -/
theorem exists_pairWord_eq {w : Nat} (h : w < 64) : ∃ op k, pairWord op k = w := by
  refine ⟨BitVec.ofNat 3 (w / 8), BitVec.ofNat 3 (w % 8), ?_⟩
  simp only [pairWord, BitVec.toNat_ofNat]
  omega

/-! ### Raw cells (30_encoding R68) -/

theorem decode_unknownOpcode {op : Nat} (rest : List Nat) (h : 7 < op) :
    decode (op :: rest) = .error (.unknownOpcode op) := if_pos h

theorem decode_truncated {op : Nat} (h : op ≤ 7) : decode [op] = .error .truncated := by
  rw [decode, if_neg h.not_gt]

theorem decode_operandOutOfRange {op k : Nat} (rest : List Nat) (hop : op ≤ 7) (hk : 7 < k) :
    decode (op :: k :: rest) = .error (.operandOutOfRange k) := by
  rw [decode, if_neg hop.not_gt]
  exact if_pos hk

/-- Raw cells that fit 3 bits decode as the pair they are. -/
theorem decode_toNat (op k : ProgCell) (rest : List Nat) :
    decode (op.toNat :: k.toNat :: rest) = .ok (decodePair op k, rest) := by
  have hop : ¬ 7 < op.toNat := by omega
  have hk : ¬ 7 < k.toNat := by omega
  simp [decode, hop, hk]

/-- Settles O6: the decoder's equation for each shape of the raw cells. -/
theorem rawCellsAreRejectedByName : Obligations.RawCellsAreRejectedByName := by
  unfold Obligations.RawCellsAreRejectedByName
  exact ⟨rfl, fun _ rest => decode_unknownOpcode rest, fun _ => decode_truncated,
    fun _ _ rest => decode_operandOutOfRange rest, decode_toNat⟩

theorem decodeTableWord_pairWord (op k : ProgCell) :
    decodeTableWord 8 (pairWord op k) = some (decodePair op k) := by
  rw [decodeTableWord, wordOpcode_pairWord, wordOperand_pairWord, decode_toNat]

/-- Settles O5: the two directions for a pair, and `decodeTableWord_pairWord` for its word. -/
theorem decodeOfEncodeIsTheInstruction : Obligations.DecodeOfEncodeIsTheInstruction := by
  unfold Obligations.DecodeOfEncodeIsTheInstruction
  exact ⟨decodePair_encode, encode_decodePair, fun i => by rw [decodeTableWord_pairWord, decodePair_encode]⟩

/-- Settles O1: each of the eight words is the word of its pair, which `decodeTableWord_pairWord` decodes. -/
theorem writtenOutWordsDecode : Obligations.WrittenOutWordsDecode := by
  unfold Obligations.WrittenOutWordsDecode
  exact ⟨decodeTableWord_pairWord 0 1, decodeTableWord_pairWord 1 7, decodeTableWord_pairWord 2 4,
    decodeTableWord_pairWord 3 0, decodeTableWord_pairWord 4 7, decodeTableWord_pairWord 5 6,
    decodeTableWord_pairWord 6 5, decodeTableWord_pairWord 7 7⟩

/-! ### Programs as lists of instructions (30_encoding R71, 20_memory R42) -/

theorem decodeProgram_encodeProgram (is : List Instr) : decodeProgram (encodeProgram is) = some is := by
  induction is with
  | nil => rfl
  | cons i rest ih => rw [encodeProgram, decodeProgram, ih, Option.map_some, decodePair_encode]

theorem encodeProgram_of_decodeProgram {cells : List ProgCell} {is : List Instr} (h : decodeProgram cells = some is) :
    encodeProgram is = cells := by
  induction cells using decodeProgram.induct generalizing is with
  | case1 => cases h; rfl
  | case2 op => cases h
  | case3 op k rest ih =>
    obtain ⟨tail, htail, rfl⟩ := Option.map_eq_some_iff.1 h
    rw [encodeProgram, ih htail, encode_decodePair]

theorem exists_decodeProgram_of_even {cells : List ProgCell} (h : cells.length % 2 = 0) :
    ∃ is, decodeProgram cells = some is := by
  induction cells using decodeProgram.induct with
  | case1 => exact ⟨[], rfl⟩
  | case2 op => cases h
  | case3 op k rest ih =>
    obtain ⟨tail, htail⟩ := ih (by simp only [List.length_cons] at h; omega)
    exact ⟨decodePair op k :: tail, by rw [decodeProgram, htail, Option.map_some]⟩

/-- Settles O7: the two directions by induction over the program and over the cells; what decodes is an encoding, so its
length is even. -/
theorem decodeOfEncodedProgramIsTheProgram : Obligations.DecodeOfEncodedProgramIsTheProgram := by
  unfold Obligations.DecodeOfEncodedProgramIsTheProgram
  refine ⟨decodeProgram_encodeProgram, fun _ _ => encodeProgram_of_decodeProgram,
    fun cells => ⟨?even, exists_decodeProgram_of_even⟩⟩
  case even =>
    rintro ⟨is, his⟩
    rw [Machine.Memory.wf, ← encodeProgram_of_decodeProgram his, encodeProgram_length, Nat.mul_mod_right]

/-- The n-th instruction of a program stands at the indices 2n and 2n + 1 of its cells. -/
theorem encodeProgram_get {is : List Instr} {n : Nat} {i : Instr} (h : is[n]? = some i) :
    (encodeProgram is)[2 * n]? = some (encode i).1 ∧ (encodeProgram is)[2 * n + 1]? = some (encode i).2 := by
  induction is generalizing n with
  | nil => cases h
  | cons j rest ih =>
    cases n with
    | zero => cases h; exact ⟨rfl, rfl⟩
    | succ n => exact ih (n := n) h

/-- An even index of a program's cells is that of an instruction of the program. -/
theorem decodePair_mem_of_even {is : List Instr} {j : Nat} {op k : ProgCell} (heven : j % 2 = 0)
    (hop : (encodeProgram is)[j]? = some op) (hk : (encodeProgram is)[j + 1]? = some k) : decodePair op k ∈ is := by
  obtain ⟨n, rfl⟩ : ∃ n, j = 2 * n := ⟨j / 2, by omega⟩
  have hlt := (List.getElem?_eq_some_iff.1 hop).1
  rw [encodeProgram_length] at hlt
  have hn : is[n]? = some is[n] := List.getElem?_eq_getElem (by omega)
  obtain ⟨hop', hk'⟩ := encodeProgram_get hn
  rw [Option.some.inj (hop.symm.trans hop'), Option.some.inj (hk.symm.trans hk'), decodePair_encode]
  exact List.mem_of_getElem? hn

end Sys2Proof

namespace Sys2Proof.Machine

/-! ### The step at an encoded instruction (40_execute_cycle R85 to R87) -/

theorem step_of_encode {s : State} {i : Instr} (h : s.enabled = true) (hop : s.pm[s.ip]? = some (encode i).1)
    (hk : s.pm[s.ip + 1]? = some (encode i).2) : step s = exec i s := by
  rw [step_of_cells h hop hk, decodePair_encode]

/-- Settles O25: the cells at ip decode to the instruction they encode. -/
theorem stepRunsTheDecodedInstruction : Obligations.StepRunsTheDecodedInstruction := by
  unfold Obligations.StepRunsTheDecodedInstruction
  exact fun i s hs => step_of_encode (s.enabled_iff.2 hs)

/-- Settles O8: `encodeProgram_get` finds the n-th instruction's cells at ip, and the program has 2 cells for each
instruction. -/
theorem encodedProgramRunsItsInstructions : Obligations.EncodedProgramRunsItsInstructions := by
  unfold Obligations.EncodedProgramRunsItsInstructions
  intro is s hs hpm
  have he : s.enabled = true := s.enabled_iff.2 hs
  refine ⟨fun n i hi hip => ?inside, fun hip => ?pastEnd⟩
  case inside =>
    obtain ⟨hop, hk⟩ := encodeProgram_get hi
    exact step_of_encode he (by rwa [hpm, hip]) (by rwa [hpm, hip])
  case pastEnd => exact step_of_pastEnd he (by rwa [hpm, encodeProgram_length])

/-! ### A placed table word (notes/assumptions/4.md) -/

theorem withFetchWord_pairWord_pm (s : State) (op k : ProgCell) :
    (s.withFetchWord 8 (pairWord op k)).pm = s.pm.placePair s.ip op k := by
  simp [State.withFetchWord, wordOpcode_pairWord, wordOperand_pairWord]

theorem step_withFetchWord_pairWord (s : State) (op k : ProgCell) :
    step (s.withFetchWord 8 (pairWord op k)) = exec (decodePair op k) (s.withFetchWord 8 (pairWord op k)) := by
  obtain ⟨hop, hk⟩ := Memory.placePair_get s.pm s.ip op k
  rw [← withFetchWord_pairWord_pm] at hop hk
  exact step_of_cells (withFetchWord_enabled _ _ _) hop hk

/-- Settles O57: a word of 6 bits is some pair's word; that pair stands at ip once placed, and every other field and cell
is `placePair`'s frame. -/
theorem placedWordRunsNext : Obligations.PlacedWordRunsNext := by
  unfold Obligations.PlacedWordRunsNext
  intro s w hw
  obtain ⟨op, k, rfl⟩ := exists_pairWord_eq hw
  refine ⟨_, decodeTableWord_pairWord op k, step_withFetchWord_pairWord s op k, rfl, fun r => ?reg, rfl,
    fun j hj hop hk => ?cell⟩
  case reg => cases r <;> rfl
  case cell =>
    rw [withFetchWord_pairWord_pm]
    exact Memory.placePair_get_of_ne s.pm op k hop hk hj

end Sys2Proof.Machine

/-! SUPPORT. The statement of 40_execute_cycle R84 and 60_exceptions R140: valid programs with even jump targets.

At an even ip the next pair is an instruction of the program, so it is well formed; it leaves ip even, because a jump goes
to an even target and everything else adds 2. So no check can fail. -/

namespace Sys2Proof.Machine

/-- What a run of the program `is` from an even index keeps where OUT_CAP = ∞. -/
structure OnEvenPath (is : List Instr) (s : State) : Prop where
  pm_eq : s.pm = encodeProgram is
  cap_none : s.cfg.outCap = none
  ip_even : s.ip % 2 = 0
  not_faulted : s.runState ≠ .faulted

/-- A well-formed instruction with an even target, if it jumps, completes and keeps ip even where OUT_CAP = ∞. -/
theorem ExecCase.active_and_even {i : Instr} {s t : State} (h : ExecCase i s t) (hwf : i.wellFormed = true)
    (htarget : ∀ k : ProgCell, i = .jumpIfNonzero k → k.toNat % 2 = 0) (hcap : s.cfg.outCap = none)
    (heven : s.ip % 2 = 0) : t.runState = .active ∧ t.ip % 2 = 0 := by
  have hnext : (s.ip + 2) % 2 = 0 := by omega
  cases h with
  | decodeError hw => cases hwf.symm.trans hw
  | overflow k hi hk hf => cases hcap.symm.trans (s.outFull_iff.1 hf)
  | taken k hi ha => exact ⟨rfl, htarget k hi⟩
  | reg r v hw hr => exact ⟨rfl, by simpa using heven⟩
  | notTaken k hi ha => exact ⟨rfl, hnext⟩
  | output k v hi hk hv hf => exact ⟨rfl, hnext⟩

theorem OnEvenPath.of_step {is : List Instr} {s t : State} (hwf : ∀ i ∈ is, i.wellFormed = true)
    (htargets : ∀ k : ProgCell, .jumpIfNonzero k ∈ is → k.toNat % 2 = 0) (h : OnEvenPath is s)
    (hst : step s = .next t) : OnEvenPath is t := by
  obtain ⟨hpm, hcap, heven, hok⟩ := h
  obtain ⟨hpm', hcfg'⟩ := step_pm_cfg_eq hst
  suffices hgoal : t.ip % 2 = 0 ∧ t.runState ≠ .faulted by
    obtain ⟨heven', hok'⟩ := hgoal
    exact ⟨hpm'.trans hpm, by rw [hcfg', hcap], heven', hok'⟩
  cases StepCase.of_step hst with
  | halt hip => exact ⟨heven, by simp⟩
  | truncated hip =>
    rw [hpm, encodeProgram_length] at hip
    omega
  | instr op k hop hk hx hc =>
    rw [hpm] at hop hk
    have hmem := decodePair_mem_of_even heven hop hk
    obtain ⟨hactive, heven'⟩ :=
      hc.active_and_even (hwf _ hmem) (fun j hj => htargets j (hj ▸ hmem)) hcap heven
    exact ⟨heven', by simp [hactive]⟩

/-- Settles O47: `OnEvenPath` is kept by every step of the run. -/
theorem validProgramWithEvenTargetsNeverFaults : Obligations.ValidProgramWithEvenTargetsNeverFaults := by
  unfold Obligations.ValidProgramWithEvenTargetsNeverFaults
  intro is s hpm hwf htargets hcap heven hok t hst
  exact (hst.keeps (fun _ _ => OnEvenPath.of_step hwf htargets) ⟨hpm, hcap, heven, hok⟩).not_faulted

end Sys2Proof.Machine

/-! SUPPORT. The statements of 40_execute_cycle R81, R84 and 60_exceptions R142 to R147: how a step ends.

`StepCase.ending` names the one check of the rule's order that decided the step, with the cells that made it fire; the
statements about the faults, their causes and their repetition are read off it. -/

namespace Sys2Proof.Machine

/-! ### When there is a step (40_execute_cycle R81) -/

theorem step_eq_fault_iff {s : State} {f : Fault} : step s = .fault f ↔ s.terminalFault = some f := by
  refine ⟨fun h => ?_, step_of_terminal⟩
  cases hf : s.terminalFault with
  | some g =>
    rw [step_of_terminal hf] at h
    cases h
    rfl
  | none =>
    obtain ⟨t, ht, -⟩ := step_cases ((State.terminalFault_none s).1 hf)
    cases ht.symm.trans h

theorem exists_step_iff {s : State} : (∃ t, step s = .next t) ↔ s.enabled = true := by
  refine ⟨fun ⟨t, ht⟩ => enabled_of_step ht, fun h => ?_⟩
  obtain ⟨t, ht, -⟩ := step_cases h
  exact ⟨t, ht⟩

theorem step_ne_refused (s : State) (r : Refusal) : step s ≠ .refused r := by
  intro h
  cases hf : s.terminalFault with
  | some f => cases (step_of_terminal hf).symm.trans h
  | none =>
    obtain ⟨t, ht, -⟩ := step_cases ((State.terminalFault_none s).1 hf)
    cases ht.symm.trans h

theorem State.terminalFault_eq_halted_iff (s : State) : s.terminalFault = some .halted ↔ s.runState = .halted := by
  unfold State.terminalFault
  cases s.runState <;> simp

theorem State.terminalFault_eq_faulted_iff (s : State) (c : Cause) :
    s.terminalFault = some (.faulted c) ↔ s.runState = .faulted ∧ s.cause = c := by
  unfold State.terminalFault
  cases s.runState <;> simp

/-- Settles O28: a step exists where the machine is enabled, and elsewhere its fault is the terminal one. -/
theorem stepExistsExactlyWhenReady : Obligations.StepExistsExactlyWhenReady := by
  unfold Obligations.StepExistsExactlyWhenReady
  exact fun s => ⟨exists_step_iff.trans s.enabled_iff, step_eq_fault_iff.trans s.terminalFault_eq_halted_iff,
    fun c => step_eq_fault_iff.trans (s.terminalFault_eq_faulted_iff c), step_ne_refused s⟩

/-! ### The check that decides a step (60_exceptions R147) -/

/-- Only the opcode 5 decodes to an Output, and its operand is the combo operand of the operand cell. -/
theorem decodePair_eq_output {op k : ProgCell} {j : Combo} (h : decodePair op k = .output j) :
    op = 5 ∧ Combo.ofCode k = j := by
  have hop : op = 5 := calc
    op = (decodePair op k).opcode.cell := by rw [decodePair_opcode, cell_decodeOpcode]
    _ = 5 := by rw [h]; rfl
  subst hop
  exact ⟨rfl, Instr.output.inj h⟩

/-- An instruction completes with CAUSE kept, or it is ill-formed, or it is an Output that finds a full accumulator. -/
theorem ExecCase.ending {i : Instr} {s t : State} (h : ExecCase i s t) :
    (t.runState = .active ∧ t.cause = s.cause) ∨ (i.wellFormed = false ∧ t = s.raise .decodeError) ∨
      ∃ k, i = .output k ∧ k.valid = true ∧ s.outFull = true ∧ t = s.raise .outputOverflow := by
  cases h with
  | reg r v hw hr => exact .inl (by simp)
  | taken k hi ha => exact .inl ⟨rfl, rfl⟩
  | notTaken k hi ha => exact .inl ⟨rfl, rfl⟩
  | output k v hi hk hv hf => exact .inl ⟨rfl, rfl⟩
  | decodeError hw => exact .inr (.inl ⟨hw, rfl⟩)
  | overflow k hi hk hf => exact .inr (.inr ⟨k, hi, hk, hf, rfl⟩)

/-- The pair at ip is an Output whose operand resolves and that finds a full accumulator (44_output R132). -/
def OverflowsAtIp (s : State) : Prop :=
  ∃ k : ProgCell, s.pm[s.ip]? = some 5 ∧ s.pm[s.ip + 1]? = some k ∧ k ≠ 7 ∧ s.cfg.outCap = some s.out.length

/-- The pair at ip has a combo-mode opcode and the operand cell 7 (60_exceptions R141). -/
def ReservedAtIp (s : State) : Prop :=
  ∃ op : ProgCell, s.pm[s.ip]? = some op ∧ s.pm[s.ip + 1]? = some 7 ∧ Spec.comboOpcode op

/-- The five endings of a step: it completes, it halts, or one of the three checks that can fail raises its fault. -/
inductive StepEnding (s t : State) : Prop
  | completed (hactive : t.runState = .active) (hcause : t.cause = s.cause)
  | halted (hip : s.pm.length ≤ s.ip) (ht : t = s.halt)
  | truncated (hip : s.ip + 1 = s.pm.length) (ht : t = s.raise .truncatedInstruction)
  | decodeError (h : ReservedAtIp s) (ht : t = s.raise .decodeError)
  | overflow (h : OverflowsAtIp s) (ht : t = s.raise .outputOverflow)

theorem StepCase.ending {s t : State} (h : StepCase s t) : StepEnding s t := by
  cases h with
  | halt hip => exact .halted hip rfl
  | truncated hip => exact .truncated hip rfl
  | instr op k hop hk hx hc =>
    obtain ⟨hactive, hcause⟩ | ⟨hw, ht⟩ | ⟨j, hj, hvalid, hfull, ht⟩ := hc.ending
    · exact .completed hactive hcause
    · obtain ⟨hcombo, rfl⟩ := (decodePair_illFormed_iff op k).1 hw
      exact .decodeError ⟨op, hop, hk, hcombo⟩ ht
    · obtain ⟨rfl, rfl⟩ := decodePair_eq_output hj
      rw [Combo.ofCode_valid, decide_eq_true_iff] at hvalid
      exact .overflow ⟨k, hop, hk, hvalid, s.outFull_iff.1 hfull⟩ ht

theorem StepEnding.of_step {s t : State} (h : step s = .next t) : StepEnding s t := (StepCase.of_step h).ending

theorem step_of_reservedAtIp {s : State} (he : s.enabled = true) (h : ReservedAtIp s) :
    step s = .next (s.raise .decodeError) := by
  obtain ⟨op, hop, hk, hcombo⟩ := h
  exact step_of_illFormed he hop hk ((decodePair_illFormed_iff op 7).2 ⟨hcombo, rfl⟩)

theorem step_of_overflowsAtIp {s : State} (he : s.enabled = true) (h : OverflowsAtIp s) :
    step s = .next (s.raise .outputOverflow) := by
  obtain ⟨k, hop, hk, hne, hfull⟩ := h
  exact (step_of_cells he hop hk).trans (exec_output_of_full hne hfull)

/-- Settles O29: the step past the end, in the last cell, at a reserved pair and at a full Output; a step whose pair is
neither of these two can only have the completed ending. -/
theorem firstFailingCheckDecides : Obligations.FirstFailingCheckDecides := by
  unfold Obligations.FirstFailingCheckDecides
  intro s hs
  have he : s.enabled = true := s.enabled_iff.2 hs
  refine ⟨step_of_pastEnd he, step_of_last he, fun op k hop hk => ⟨?reserved, ?full, fun hcombo hout => ?completes⟩⟩
  case reserved =>
    rintro ⟨hcombo, rfl⟩
    exact step_of_reservedAtIp he ⟨op, hop, hk, hcombo⟩
  case full =>
    rintro ⟨rfl, hne, hfull⟩
    exact step_of_overflowsAtIp he ⟨k, hop, hk, hne, hfull⟩
  case completes =>
    obtain ⟨t, ht, hc⟩ := step_cases he
    refine ⟨t, ht, ?_⟩
    have hin := ip_lt_of_cells hk
    cases hc.ending with
    | completed hactive hcause => exact ⟨hactive, hcause⟩
    | halted hip _ => omega
    | truncated hip _ => omega
    | decodeError h _ =>
      obtain ⟨op', hop', hk', hcombo'⟩ := h
      cases hop.symm.trans hop'
      exact absurd ⟨hcombo', Option.some.inj (hk.symm.trans hk')⟩ hcombo
    | overflow h _ =>
      obtain ⟨k', hop', -, -, hfull⟩ := h
      exact absurd ⟨Option.some.inj (hop.symm.trans hop'), hfull⟩ hout

/-- Settles O27: the step in the last cell, and no other ending has that cause where CAUSE was NONE. -/
theorem opcodeInTheLastCellFaults : Obligations.OpcodeInTheLastCellFaults := by
  unfold Obligations.OpcodeInTheLastCellFaults
  intro s hs
  refine ⟨step_of_last (s.enabled_iff.2 hs), fun t hnone hst hcause => ?_⟩
  cases StepEnding.of_step hst with
  | truncated hip _ => exact hip
  | completed _ hkept => simp [hkept, hnone] at hcause
  | halted _ ht => simp [ht, hnone] at hcause
  | decodeError _ ht => simp [ht] at hcause
  | overflow _ ht => simp [ht] at hcause

theorem overflowsAtIp_of_step {s t : State} (hnone : s.cause = .none) (hst : step s = .next t)
    (hcause : t.cause = .outputOverflow) : OverflowsAtIp s := by
  cases StepEnding.of_step hst with
  | overflow h _ => exact h
  | completed _ hkept => simp [hkept, hnone] at hcause
  | halted _ ht => simp [ht, hnone] at hcause
  | truncated _ ht => simp [ht] at hcause
  | decodeError _ ht => simp [ht] at hcause

/-- Settles O23: from CAUSE = NONE only the overflow ending has that cause, and it needs a finite OUT_CAP. -/
theorem overflowExactlyWhenFull : Obligations.OverflowExactlyWhenFull := by
  unfold Obligations.OverflowExactlyWhenFull
  intro s t hnone hst
  refine ⟨⟨overflowsAtIp_of_step hnone hst, fun h => ?_⟩, fun hcap hcause => ?_⟩
  · rw [Host.Outcome.next.inj (hst.symm.trans (step_of_overflowsAtIp (enabled_of_step hst) h)), State.raise_cause]
  · obtain ⟨k, -, -, -, hfull⟩ := overflowsAtIp_of_step hnone hst hcause
    cases hcap.symm.trans hfull

/-! ### UnknownOpcode (60_exceptions R142) -/

theorem StepEnding.cause_ne_unknownOpcode {s t : State} (h : StepEnding s t) (hs : s.cause ≠ .unknownOpcode) :
    t.cause ≠ .unknownOpcode := by
  cases h with
  | completed _ hkept => rwa [hkept]
  | halted _ ht => rwa [ht]
  | truncated _ ht => simp [ht]
  | decodeError _ ht => simp [ht]
  | overflow _ ht => simp [ht]

/-- Settles O32: no ending of a step raises UnknownOpcode. -/
theorem unknownOpcodeIsUnreachable : Obligations.UnknownOpcodeIsUnreachable := by
  unfold Obligations.UnknownOpcodeIsUnreachable
  exact fun s t hs hst => hst.keeps (P := fun u => u.cause ≠ .unknownOpcode)
    (fun _ _ hu huv => (StepEnding.of_step huv).cause_ne_unknownOpcode hu) hs

/-! ### Fault entry and its repetition (60_exceptions R145, R146) -/

theorem State.enabled_of_faulted {s : State} (h : s.runState = .faulted) : s.enabled = false := by
  simp [State.enabled, h]

/-- A step that ends in FAULTED is one fault entry, inside the program. -/
theorem StepCase.raise_of_faulted {s t : State} (h : StepCase s t) (ht : t.runState = .faulted) :
    t = s.raise t.cause ∧ t.cause ≠ .none ∧ s.ip < s.pm.length := by
  obtain ⟨hactive, -⟩ | ⟨rfl, -⟩ | ⟨c, hc, rfl, hip⟩ := h.active_or_halt_or_raise
  · cases hactive.symm.trans ht
  · cases ht
  · refine ⟨rfl, ?_, hip⟩
    rintro (rfl : c = .none)
    simp at hc

/-- Settles O30: the fault entry is `StepCase.raise_of_faulted`'s; STEP reports the faulted state it leads to, and RUN
goes no further from it. -/
theorem faultEntryIsPrecise : Obligations.FaultEntryIsPrecise := by
  unfold Obligations.FaultEntryIsPrecise
  intro s t hst ht
  obtain ⟨hraise, hcause, hip⟩ := (StepCase.of_step hst).raise_of_faulted ht
  refine ⟨hraise, hcause, hip, ?step, fun n => ?run⟩
  case step =>
    have hout : stepOutcome t = .fault t.cause := by
      rw [stepOutcome, (t.terminalFault_eq_faulted_iff t.cause).2 ⟨ht, rfl⟩]
    rw [hostDo, hostStep_enabled hst, hout]
  case run =>
    have hout : runOutcome t = .fault t.cause := (runOutcome_eq_fault_iff t t.cause).2 ⟨ht, rfl⟩
    rw [hostDo, hostRun, runFuel_succ hst, runFuel_terminal (State.enabled_of_faulted ht), hout]

/-- Whether a step faults, and how, depends on program memory, ip, OUT_CAP and the accumulator only. -/
theorem step_raise_congr {s u : State} {c : Cause} (hst : step s = .next (s.raise c)) (hu : u.enabled = true)
    (hpm : u.pm = s.pm) (hip : u.ip = s.ip) (hcfg : u.cfg = s.cfg) (hout : u.out = s.out) :
    step u = .next (u.raise c) := by
  cases StepEnding.of_step hst with
  | completed hactive _ => cases hactive
  | halted _ ht => cases congrArg State.runState ht
  | truncated h ht =>
    cases congrArg State.cause ht
    exact step_of_last hu (by rwa [hpm, hip])
  | decodeError h ht =>
    cases congrArg State.cause ht
    exact step_of_reservedAtIp hu (by rwa [ReservedAtIp, hpm, hip])
  | overflow h ht =>
    cases congrArg State.cause ht
    exact step_of_overflowsAtIp hu (by rwa [OverflowsAtIp, hpm, hip, hcfg, hout])

/-- Settles O33: the faulted machine's own answer is its terminal fault, and the retry is `step_raise_congr`. -/
theorem retryFaultsTheSameWay : Obligations.RetryFaultsTheSameWay := by
  unfold Obligations.RetryFaultsTheSameWay
  intro s t hst ht
  obtain ⟨hraise, -, -⟩ := (StepCase.of_step hst).raise_of_faulted ht
  refine ⟨step_of_terminal ((t.terminalFault_eq_faulted_iff t.cause).2 ⟨ht, rfl⟩), fun a b c => ?_⟩
  rw [hraise] at hst ⊢
  exact step_raise_congr (u := { s with a, b, c, runState := .active, cause := .none }) hst rfl rfl rfl rfl rfl

end Sys2Proof.Machine

/-! SUPPORT. The statement of 44_output R130: the accumulator counts completed Outputs. -/

namespace Sys2Proof.Machine

theorem completesOutput_iff (s : State) :
    completesOutput s = true ↔ ∃ k, nextInstr s = some (.output k) ∧ k.valid = true ∧ s.outFull = false := by
  unfold completesOutput
  split
  · next k h => simp [h]
  · next h => exact ⟨fun hf => by simp at hf, fun ⟨k, hk, _⟩ => absurd hk (h k)⟩

theorem out_of_completesOutput {s t : State} (h : completesOutput s = true) (hst : step s = .next t) :
    ∃ d : Digit, t.out = s.out ++ [d] := by
  obtain ⟨k, hk, hvalid, hroom⟩ := (completesOutput_iff s).1 h
  obtain ⟨-, v, hv⟩ | ⟨rfl, -⟩ := Combo.resolve_cases k s
  · rw [step_of_nextInstr hk, (ExecCase.output k v rfl hvalid hv hroom).exec_eq] at hst
    cases hst
    exact ⟨toDigit v, rfl⟩
  · cases hvalid

theorem out_of_not_completesOutput {s t : State} (h : completesOutput s = false) (hst : step s = .next t) :
    t.out = s.out := by
  cases StepCase.of_step hst with
  | halt hip => rfl
  | truncated hip => rfl
  | instr op k hop hk hx hc =>
    have hnext : nextInstr s = some (decodePair op k) :=
      (nextInstr_eq_some s _).2 ⟨enabled_of_step hst, op, k, hop, hk, rfl⟩
    cases hc with
    | output j v hi hj hv hf => cases h.symm.trans ((completesOutput_iff s).2 ⟨j, hi ▸ hnext, hj, hf⟩)
    | reg r v hw hr => simp
    | decodeError hw => rfl
    | taken j hi ha => rfl
    | notTaken j hi ha => rfl
    | overflow j hi hj hf => rfl

/-- Settles O24: the step's two cases, and the count over a run by induction on its length; a machine that has no step
completes no Output. -/
theorem outputLengthCountsCompletedOutputs : Obligations.OutputLengthCountsCompletedOutputs := by
  unfold Obligations.OutputLengthCountsCompletedOutputs
  refine ⟨fun s t hst => ⟨fun h => out_of_completesOutput h hst, fun h => out_of_not_completesOutput h hst⟩,
    fun s n => ?_⟩
  induction n with
  | zero => exact ⟨rfl, List.prefix_rfl⟩
  | succ n ih =>
    obtain ⟨hlen, hprefix⟩ := ih
    cases hp : completesOutput (stateAt s n) with
    | true =>
      obtain ⟨k, hk, -⟩ := (completesOutput_iff _).1 hp
      obtain ⟨d, hd⟩ := out_of_completesOutput hp (step_stateAt (enabled_of_nextInstr hk))
      rw [countSteps_succ_of_true hp, hd, List.length_append, hlen]
      exact ⟨rfl, hprefix.trans (List.prefix_append _ _)⟩
    | false =>
      have hout : (stateAt s (n + 1)).out = (stateAt s n).out := by
        cases he : (stateAt s n).enabled with
        | true => exact out_of_not_completesOutput hp (step_stateAt he)
        | false => rw [stateAt_succ_terminal he]
      rw [countSteps_succ_of_false hp, hout]
      exact ⟨hlen, hprefix⟩

end Sys2Proof.Machine

/-! SUPPORT. The statement of 10_state R25: register widths along a run, and runs of machines of another REG_WIDTH. -/

namespace Sys2Proof.Machine

/-! ### No register outgrows a bound of 3 bits or more -/

theorem ExecCase.readReg_lt {i : Instr} {s t : State} {W : Nat} (h : ExecCase i s t) (hW : 3 ≤ W)
    (hs : ∀ q, s.readReg q < 2 ^ W) (r : Reg) : t.readReg r < 2 ^ W := by
  cases h with
  | reg q v hw hq =>
    rw [State.readReg_complete, State.readReg_writeReg]
    split
    · exact regEffect_lt hq hW hs
    · exact hs r
  | decodeError hw => simpa using hs r
  | taken k hi ha => simpa using hs r
  | notTaken k hi ha => simpa using hs r
  | output k v hi hk hv hf => simpa using hs r
  | overflow k hi hk hf => simpa using hs r

theorem StepCase.readReg_lt {s t : State} {W : Nat} (h : StepCase s t) (hW : 3 ≤ W)
    (hs : ∀ q, s.readReg q < 2 ^ W) (r : Reg) : t.readReg r < 2 ^ W := by
  cases h with
  | halt hip => simpa using hs r
  | truncated hip => simpa using hs r
  | instr op k hop hk hx hc => exact hc.readReg_lt hW hs r

theorem Runs.readReg_lt {s t : State} {W : Nat} (h : Runs s t) (hW : 3 ≤ W) (hs : ∀ q, s.readReg q < 2 ^ W) :
    ∀ r, t.readReg r < 2 ^ W :=
  h.keeps (P := fun u => ∀ q, u.readReg q < 2 ^ W) (fun _ _ hu huv => (StepCase.of_step huv).readReg_lt hW hu) hs

/-! ### REG_WIDTH has no influence on a step -/

/-- The same machine with another REG_WIDTH. -/
def State.withRegWidth (s : State) (w : Option Nat) : State := { s with cfg := { s.cfg with regWidth := w } }

theorem Combo.resolve_withRegWidth (k : Combo) (s : State) (w : Option Nat) :
    Combo.resolve k (s.withRegWidth w) = Combo.resolve k s := by
  cases k with
  | lit n => rfl
  | reg r => cases r <;> rfl
  | reserved => rfl

theorem regEffect_withRegWidth (i : Instr) (s : State) (w : Option Nat) :
    regEffect i (s.withRegWidth w) = regEffect i s := by
  cases i with
  | xorLiteral k => rfl
  | jumpIfNonzero k => rfl
  | xorRegisters k => rfl
  | output k => rfl
  | divA k => simp only [regEffect, Combo.resolve_withRegWidth]; rfl
  | modulo k => simp only [regEffect, Combo.resolve_withRegWidth]
  | divB k => simp only [regEffect, Combo.resolve_withRegWidth]; rfl
  | divC k => simp only [regEffect, Combo.resolve_withRegWidth]; rfl

theorem ExecCase.withRegWidth {i : Instr} {s t : State} (h : ExecCase i s t) (w : Option Nat) :
    ExecCase i (s.withRegWidth w) (t.withRegWidth w) := by
  cases h with
  | decodeError hw => exact .decodeError hw
  | taken k hi ha => exact .taken k hi ha
  | notTaken k hi ha => exact .notTaken k hi ha
  | output k v hi hk hv hf => exact .output k v hi hk ((Combo.resolve_withRegWidth k s w).trans hv) hf
  | overflow k hi hk hf => exact .overflow k hi hk hf
  | reg r v hw hr =>
    have hwrite : (s.writeReg r v).complete.withRegWidth w = ((s.withRegWidth w).writeReg r v).complete := by
      cases r <;> rfl
    rw [hwrite]
    exact .reg r v hw ((regEffect_withRegWidth i s w).trans hr)

theorem step_withRegWidth {s t : State} (hst : step s = .next t) (w : Option Nat) :
    step (s.withRegWidth w) = .next (t.withRegWidth w) := by
  have hs : s.enabled = true := enabled_of_step hst
  have he : (s.withRegWidth w).enabled = true := hs
  cases StepCase.of_step hst with
  | halt hip => exact step_of_pastEnd he hip
  | truncated hip => exact step_of_last he hip
  | instr op k hop hk hx hc => exact (step_of_cells he hop hk).trans (hc.withRegWidth w).exec_eq

theorem Runs.withRegWidth {s t : State} (h : Runs s t) (w : Option Nat) :
    Runs (s.withRegWidth w) (t.withRegWidth w) := by
  induction h with
  | refl => exact .refl
  | tail _ hst ih => exact .tail ih (step_withRegWidth hst w)

/-- Settles O38: the bound W0 is at least 3 bits and holds of the first registers, so `Runs.readReg_lt` keeps it; and
`Runs.withRegWidth` is the run of the other machine. -/
theorem registersStayWithinTheirWidth : Obligations.RegistersStayWithinTheirWidth := by
  unfold Obligations.RegistersStayWithinTheirWidth
  intro s t hst
  refine ⟨fun r => (bitlen_le _ _).2 (hst.readReg_lt (le_max_left 3 _) (fun q => (bitlen_le _ _).1 ?first) r),
    hst.withRegWidth⟩
  case first => cases q <;> simp

end Sys2Proof.Machine

/-! SUPPORT. The statements of the invariant (Safety.lean): reset, every step and every host session keep it.

Each field has its reason in one fact about the cases of a step; the host adds the fresh state of an accepted LOAD and a
register write in IDLE. -/

namespace Sys2Proof.Machine

/-! ### The limits of the parameters as propositions (00_scope R6, R7) -/

theorem Config.fitsReg_iff (cfg : Config) (v : Nat) : Config.fitsReg cfg v = true ↔ Spec.fits cfg v := by
  unfold Config.fitsReg Spec.fits
  cases cfg.regWidth <;> simp

theorem Config.fitsProg_iff (cfg : Config) (n : Nat) :
    Config.fitsProg cfg n = true ↔ ∀ m, cfg.progLenMax = some m → n ≤ m := by
  unfold Config.fitsProg
  cases cfg.progLenMax <;> simp

theorem Config.three_le_of_wf {cfg : Config} {w : Nat} (h : cfg.wf = true) (hw : cfg.regWidth = some w) : 3 ≤ w := by
  simpa [Config.wf, hw] using h

/-! ### What a step keeps, field by field -/

theorem StepCase.fitsReg {s t : State} (h : StepCase s t) (hwf : s.cfg.wf = true)
    (hs : ∀ r, Config.fitsReg s.cfg (s.readReg r) = true) (r : Reg) : Config.fitsReg s.cfg (t.readReg r) = true :=
  (Config.fitsReg_iff _ _).2 fun w hw => h.readReg_lt (Config.three_le_of_wf hwf hw)
    (fun q => (Config.fitsReg_iff _ _).1 (hs q) w hw) r

/-- ip stays within max(L, 7): past a pair inside the program, or at a jump's 3-bit target (10_state R28). -/
theorem StepCase.ip_le {s t : State} (h : StepCase s t) (hs : s.ip ≤ max s.pm.length 7) : t.ip ≤ max s.pm.length 7 := by
  cases h with
  | halt hip => exact hs
  | truncated hip => exact hs
  | instr op k hop hk hx hc =>
    have hin := ip_lt_of_cells hk
    obtain hip | hip | ⟨j, -, -, hip⟩ := hc.ip_cases
    · rwa [hip]
    · omega
    · omega

theorem ExecCase.out_length_le {i : Instr} {s t : State} {n : Nat} (h : ExecCase i s t)
    (hcap : s.cfg.outCap = some n) (hs : s.out.length ≤ n) : t.out.length ≤ n := by
  cases h with
  | output k v hi hk hv hf =>
    have hne : s.out.length ≠ n := by
      rintro rfl
      cases hf.symm.trans (s.outFull_iff.2 hcap)
    simp only [State.complete_out, State.append_out, List.length_append, List.length_singleton]
    omega
  | reg r v hw hr => simpa using hs
  | decodeError hw => exact hs
  | taken k hi ha => exact hs
  | notTaken k hi ha => exact hs
  | overflow k hi hk hf => exact hs

theorem StepCase.out_length_le {s t : State} {n : Nat} (h : StepCase s t) (hcap : s.cfg.outCap = some n)
    (hs : s.out.length ≤ n) : t.out.length ≤ n := by
  cases h with
  | halt hip => exact hs
  | truncated hip => exact hs
  | instr op k hop hk hx hc => exact hc.out_length_le hcap hs

/-- From CAUSE = NONE a step ends with a CAUSE exactly when it ends in FAULTED (10_state R33). -/
theorem StepCase.cause_ne_none_iff {s t : State} (h : StepCase s t) (hs : s.cause = .none) :
    t.cause ≠ .none ↔ t.runState = .faulted := by
  obtain ⟨hactive, hkept⟩ | ⟨rfl, -⟩ | ⟨c, hc, rfl, -⟩ := h.active_or_halt_or_raise
  · simp [hactive, hkept, hs]
  · simp [hs]
  · refine iff_of_true ?_ rfl
    rintro (rfl : c = .none)
    simp at hc

theorem StepCase.runState_ne_idle {s t : State} (h : StepCase s t) : t.runState ≠ .idle := by
  obtain ⟨hactive, -⟩ | ⟨rfl, -⟩ | ⟨c, -, rfl, -⟩ := h.active_or_halt_or_raise
  · simp [hactive]
  · simp
  · simp

/-- A halt or a fault keeps ip (40_execute_cycle R82, 60_exceptions R145). -/
theorem StepCase.ip_eq_of_terminal {s t : State} (h : StepCase s t) (ht : t.runState ≠ .active) : t.ip = s.ip := by
  obtain ⟨hactive, -⟩ | ⟨rfl, -⟩ | ⟨c, -, rfl, -⟩ := h.active_or_halt_or_raise
  · exact absurd hactive ht
  · rfl
  · rfl

theorem State.Inv.step {s t : State} (h : s.Inv) (hst : Machine.step s = .next t) : t.Inv := by
  obtain ⟨hpm, hcfg⟩ := step_pm_cfg_eq hst
  have hc : StepCase s t := .of_step hst
  have hnone : s.cause = .none := h.cause_eq_none (s.enabled_iff.1 (enabled_of_step hst))
  exact {
    cfg_wf := by rw [hcfg]; exact h.cfg_wf
    pm_wf := by rw [hpm]; exact h.pm_wf
    pm_fits := by rw [hpm, hcfg]; exact h.pm_fits
    regs_fit := by rw [hcfg]; exact hc.fitsReg h.cfg_wf h.regs_fit
    ip_le := by rw [hpm]; exact hc.ip_le h.ip_le
    out_fits := by rw [hcfg]; exact fun n hn => hc.out_length_le hn (h.out_fits n hn)
    cause_iff := hc.cause_ne_none_iff hnone
    idle_fresh := fun ht => absurd ht hc.runState_ne_idle
    halted_past := fun ht => by
      rw [hpm, hc.ip_eq_of_terminal (by simp [ht])]
      exact hc.pastEnd_of_halted ht
    faulted_inside := fun ht => by
      obtain ⟨-, -, hip⟩ := hc.raise_of_faulted ht
      rwa [hpm, hc.ip_eq_of_terminal (by simp [ht])]
    cause_known := hc.ending.cause_ne_unknownOpcode h.cause_known }

/-- Settles O40: `State.Inv.step`, whose fields are the facts above about the cases of a step. -/
theorem stepKeepsTheInvariant : Obligations.StepKeepsTheInvariant := by
  unfold Obligations.StepKeepsTheInvariant
  exact fun _ _ => State.Inv.step

/-! ### Fresh states: reset and LOAD (10_state R35) -/

theorem State.Inv.fresh {cfg : Config} {m : Memory} {a b c : Nat} (hcfg : cfg.wf = true) (hm : Memory.wf m)
    (hfits : Config.fitsProg cfg m.length = true) (ha : Config.fitsReg cfg a = true)
    (hb : Config.fitsReg cfg b = true) (hc : Config.fitsReg cfg c = true) : (State.fresh cfg m a b c).Inv where
  cfg_wf := hcfg
  pm_wf := hm
  pm_fits := hfits
  regs_fit := fun r => by
    cases r with
    | A => exact ha
    | B => exact hb
    | C => exact hc
  ip_le := Nat.zero_le _
  out_fits := fun _ _ => Nat.zero_le _
  cause_iff := by simp [State.fresh]
  idle_fresh := fun _ => ⟨rfl, rfl⟩
  halted_past := fun h => by cases h
  faulted_inside := fun h => by cases h
  cause_known := by simp [State.fresh]

/-- Settles O39: reset is the fresh state of the empty program with zeros, within every limit. -/
theorem resetStateMeetsTheInvariant : Obligations.ResetStateMeetsTheInvariant := by
  unfold Obligations.ResetStateMeetsTheInvariant
  rw [reset_eq_fresh]
  exact .fresh rfl rfl rfl rfl rfl rfl

theorem State.Inv.hostLoad {s : State} (h : s.Inv) (prog : List Nat) (a b c : Nat) :
    (hostLoad prog a b c s).1.Inv := by
  cases hcheck : loadCheck s.cfg prog a b c with
  | some r => rwa [hostLoad_refused hcheck]
  | none =>
    obtain ⟨heven, -, hprog, ha, hb, hc⟩ := (loadCheck_none s.cfg prog a b c).1 hcheck
    rw [hostLoad_ok hcheck]
    exact .fresh h.cfg_wf (Memory.ofProgram_wf heven) (by rwa [Memory.ofProgram_length]) ha hb hc

/-! ### The other host operations (60_exceptions R156) -/

theorem State.Inv.writeReg {s : State} (h : s.Inv) {r : Reg} {v : Nat} (hv : Config.fitsReg s.cfg v = true) :
    (s.writeReg r v).Inv where
  cfg_wf := by simpa using h.cfg_wf
  pm_wf := by simpa using h.pm_wf
  pm_fits := by simpa using h.pm_fits
  regs_fit := fun q => by
    rw [State.readReg_writeReg, State.writeReg_cfg]
    split
    · exact hv
    · exact h.regs_fit q
  ip_le := by simpa using h.ip_le
  out_fits := by simpa using h.out_fits
  cause_iff := by simpa using h.cause_iff
  idle_fresh := by simpa using h.idle_fresh
  halted_past := by simpa using h.halted_past
  faulted_inside := by simpa using h.faulted_inside
  cause_known := by simpa using h.cause_known

theorem State.Inv.hostWriteReg {s : State} (h : s.Inv) (r : Reg) (v : Nat) : (hostWriteReg r v s).1.Inv := by
  unfold Machine.hostWriteReg
  split
  · next hok =>
    obtain ⟨-, hv⟩ := hok
    exact h.writeReg hv
  · exact h

theorem State.Inv.runs {s t : State} (h : s.Inv) (hst : Runs s t) : t.Inv :=
  hst.keeps (fun _ _ => State.Inv.step) h

theorem State.Inv.hostStep {s : State} (h : s.Inv) : (hostStep s).1.Inv := by
  cases he : s.enabled with
  | false => rwa [hostStep_terminal he]
  | true =>
    obtain ⟨t, hst, -⟩ := step_cases he
    rw [hostStep_enabled hst]
    exact h.step hst

theorem State.Inv.hostDo {s : State} (h : s.Inv) (op : HostOp) : (hostDo op s).1.Inv := by
  cases op with
  | load prog a b c => exact h.hostLoad prog a b c
  | writeReg r v => exact h.hostWriteReg r v
  | readReg r => exact h
  | readIp => exact h
  | readStatus => exact h
  | readOutput => exact h
  | step => exact h.hostStep
  | run fuel => exact h.runs (runFuel_runs fuel s)

/-- Settles O41: `State.Inv.hostDo` for each operation of the session. -/
theorem hostSessionsKeepTheInvariant : Obligations.HostSessionsKeepTheInvariant := by
  unfold Obligations.HostSessionsKeepTheInvariant
  intro ops
  induction ops with
  | nil => exact fun s h => h
  | cons op rest ih => exact fun s h => ih _ (h.hostDo op)

/-- Settles O48: ip is at most max(L, 7), L at most PROG_LEN_MAX, and `Nat.clog` bounds the bits of that maximum. -/
theorem ipFitsItsFiniteWidth : Obligations.IpFitsItsFiniteWidth := by
  unfold Obligations.IpFitsItsFiniteWidth
  intro s m h hm
  have hlen : s.pm.length ≤ m := (Config.fitsProg_iff _ _).1 h.pm_fits m hm
  rw [bitlen_le]
  calc s.ip
    _ < max m 7 + 1 := Nat.lt_succ_of_le (h.ip_le.trans (max_le_max_right 7 hlen))
    _ ≤ 2 ^ Nat.clog 2 (max m 7 + 1) := Nat.le_pow_clog (by decide) _

end Sys2Proof.Machine

/-! SUPPORT. The statements of 41_division R102, R103 and 42_bitwise R110, R113: DivB, DivC and the exclusive OR.

The division family shares its quotient and XorRegisters its exclusive OR with the instructions above; what is left are
the destinations and the laws of XOR. -/

namespace Sys2Proof.Machine

/-! ### DivB and DivC (41_division R102, R103) -/

theorem exec_divB_ofCode {k : ProgCell} (s : State) (h : k ≠ 7) :
    exec (.divB (Combo.ofCode k)) s = .next (s.writeReg .B (s.a / 2 ^ Spec.comboValue k s)).complete := by
  rw [exec_divB_ok (Combo.resolve_ofCode_ok s h), quotient_eq_div]

theorem exec_divB_lit_zero (s : State) : exec (.divB (.lit 0)) s = .next (s.writeReg .B s.a).complete := by
  rw [exec_divB_ok (Combo.resolve_lit 0 s), Fin.val_zero, quotient_zero]

theorem exec_divB_reg_A (s : State) : exec (.divB (.reg .A)) s = .next (s.writeReg .B 0).complete := by
  rw [exec_divB_ok (Combo.resolve_reg .A s), State.readReg_A, quotient_self]

/-- Settles O11: the valid forms by `exec_divB_ofCode`, the corner cases by the quotient's facts, the reserved operand as
an ill-formed instruction, and the truncation as the step in the last cell. -/
theorem divBDividesAIntoB : Obligations.DivBDividesAIntoB := by
  unfold Obligations.DivBDividesAIntoB
  intro s
  exact ⟨fun _ => rfl, fun _ => exec_divB_ofCode s, exec_divB_lit_zero s, exec_divB_reg_A s,
    exec_of_illFormed s (i := .divB .reserved) rfl, fun hs _ hip => step_of_last (s.enabled_iff.2 hs) hip⟩

theorem exec_divC_ofCode {k : ProgCell} (s : State) (h : k ≠ 7) :
    exec (.divC (Combo.ofCode k)) s = .next (s.writeReg .C (s.a / 2 ^ Spec.comboValue k s)).complete := by
  rw [exec_divC_ok (Combo.resolve_ofCode_ok s h), quotient_eq_div]

theorem exec_divC_lit_zero (s : State) : exec (.divC (.lit 0)) s = .next (s.writeReg .C s.a).complete := by
  rw [exec_divC_ok (Combo.resolve_lit 0 s), Fin.val_zero, quotient_zero]

theorem exec_divC_reg_A (s : State) : exec (.divC (.reg .A)) s = .next (s.writeReg .C 0).complete := by
  rw [exec_divC_ok (Combo.resolve_reg .A s), State.readReg_A, quotient_self]

/-- Settles O12: as O11, with C as the destination. -/
theorem divCDividesAIntoC : Obligations.DivCDividesAIntoC := by
  unfold Obligations.DivCDividesAIntoC
  intro s
  exact ⟨fun _ => rfl, fun _ => exec_divC_ofCode s, exec_divC_lit_zero s, exec_divC_reg_A s,
    exec_of_illFormed s (i := .divC .reserved) rfl, fun hs _ hip => step_of_last (s.enabled_iff.2 hs) hip⟩

/-! ### The exclusive OR (42_bitwise R110) -/

theorem bitlen_xorNat_le (a b : Nat) : bitlen (xorNat a b) ≤ max (bitlen a) (bitlen b) :=
  (bitlen_le _ _).2 (xorNat_lt_two_pow ((bitlen_le a _).1 (le_max_left _ _)) ((bitlen_le b _).1 (le_max_right _ _)))

@[simp] theorem xorNat_zero (a : Nat) : xorNat a 0 = a := Nat.xor_zero a

@[simp] theorem xorNat_self (a : Nat) : xorNat a a = 0 := Nat.xor_self a

/-- Settles O14: Lean's exclusive OR is bit by bit and has the laws; its length is `bitlen_xorNat_le`, and the bits from 3
up are `xorNat_div_eight`'s. -/
theorem xorWorksBitByBit : Obligations.XorWorksBitByBit := by
  unfold Obligations.XorWorksBitByBit
  exact fun a b => ⟨Nat.testBit_xor a b, bitlen_xorNat_le a b, xorNat_zero a, xorNat_self a, Nat.xor_comm a b,
    Nat.xor_assoc a b, fun hb => xorNat_div_eight (Nat.lt_succ_of_le hb)⟩

/-! ### XorRegisters (42_bitwise R113) -/

theorem exec_xorRegisters (k : ProgCell) (s : State) :
    exec (.xorRegisters k) s = .next (s.writeReg .B (xorNat s.b s.c)).complete := rfl

/-- Settles O17: the written value is `exec_xorRegisters`'s, with the laws of XOR, and the truncation is the step in the
last cell. -/
theorem xorRegistersXorsBWithC : Obligations.XorRegistersXorsBWithC := by
  unfold Obligations.XorRegistersXorsBWithC
  intro s
  refine ⟨fun _ => rfl, fun k => ⟨xorNat s.b s.c, exec_xorRegisters k s, rfl, ?equal, ?zero, bitlen_xorNat_le s.b s.c⟩,
    fun hs _ hip => step_of_last (s.enabled_iff.2 hs) hip⟩
  case equal =>
    intro hbc
    rw [hbc, xorNat_self]
  case zero =>
    intro hc
    rw [hc, xorNat_zero]

end Sys2Proof.Machine

/-! SUPPORT. The statements of 60_exceptions R146, R156 to R158 and 10_state R33: the host interface and STATUS. -/

namespace Sys2Proof.Machine

/-! ### LOAD (60_exceptions R156, R157) -/

theorem loadCheck_eq_none_iff_loadable (cfg : Config) (prog : List Nat) (a b c : Nat) :
    loadCheck cfg prog a b c = none ↔ Spec.loadable cfg prog a b c := by
  simp only [loadCheck_none, Config.fitsProg_iff, Config.fitsReg_iff, Spec.loadable]

/-- Settles O49: the checks pass, and the fresh state's cells are the program's own values. -/
theorem loadBuildsAFreshState : Obligations.LoadBuildsAFreshState := by
  unfold Obligations.LoadBuildsAFreshState
  intro prog a b c s h
  have ⟨_, hcells, _⟩ := h
  exact ⟨Memory.ofProgram prog, Memory.map_toNat_ofProgram hcells,
    hostLoad_ok ((loadCheck_eq_none_iff_loadable s.cfg prog a b c).2 h)⟩

theorem hostLoad_refused_iff (prog : List Nat) (a b c : Nat) (s : State) (r : LoadRefusal) :
    (hostLoad prog a b c s).2 = .loadRefused r ↔ loadCheck s.cfg prog a b c = some r := by
  cases h : loadCheck s.cfg prog a b c with
  | none => simp [hostLoad_ok h]
  | some q => simp [hostLoad_refused h]

/-- What each reason of a refused LOAD says of its arguments (60_exceptions R157). -/
def LoadRefusal.Holds (cfg : Config) (prog : List Nat) (a b c : Nat) : LoadRefusal → Prop
  | .oddLength => prog.length % 2 = 1
  | .cellOutOfRange => ∃ x ∈ prog, 7 < x
  | .tooLong => ∃ m, cfg.progLenMax = some m ∧ m < prog.length
  | .registerTooWide => ∃ w, cfg.regWidth = some w ∧ (2 ^ w ≤ a ∨ 2 ^ w ≤ b ∨ 2 ^ w ≤ c)

theorem Config.exists_of_not_fitsProg {cfg : Config} {n : Nat} (h : ¬ Config.fitsProg cfg n = true) :
    ∃ m, cfg.progLenMax = some m ∧ m < n := by
  simpa [Config.fitsProg_iff] using h

theorem Config.exists_of_not_fitsReg {cfg : Config} {v : Nat} (h : ¬ Config.fitsReg cfg v = true) :
    ∃ w, cfg.regWidth = some w ∧ 2 ^ w ≤ v := by
  simpa [Config.fitsReg_iff, Spec.fits] using h

theorem Config.exists_of_not_fitsRegs {cfg : Config} {a b c : Nat}
    (h : ¬ Config.fitsReg cfg a = true ∨ ¬ Config.fitsReg cfg b = true ∨ ¬ Config.fitsReg cfg c = true) :
    ∃ w, cfg.regWidth = some w ∧ (2 ^ w ≤ a ∨ 2 ^ w ≤ b ∨ 2 ^ w ≤ c) := by
  obtain ha | hb | hc := h
  · obtain ⟨w, hw, ha⟩ := Config.exists_of_not_fitsReg ha
    exact ⟨w, hw, .inl ha⟩
  · obtain ⟨w, hw, hb⟩ := Config.exists_of_not_fitsReg hb
    exact ⟨w, hw, .inr (.inl hb)⟩
  · obtain ⟨w, hw, hc⟩ := Config.exists_of_not_fitsReg hc
    exact ⟨w, hw, .inr (.inr hc)⟩

/-- The reason a LOAD is refused for is one that holds. -/
theorem holds_of_loadCheck {cfg : Config} {prog : List Nat} {a b c : Nat} {r : LoadRefusal}
    (h : loadCheck cfg prog a b c = some r) : r.Holds cfg prog a b c := by
  unfold loadCheck at h
  split_ifs at h with hodd hcell hlong hwide
  · cases h
    exact Nat.mod_two_ne_zero.1 hodd
  · cases h
    simpa [LoadRefusal.Holds] using hcell
  · cases h
    exact Config.exists_of_not_fitsProg (by simpa using hlong)
  · cases h
    exact Config.exists_of_not_fitsRegs (by simpa [or_assoc] using hwide)

/-- Settles O50: LOAD is refused where its checks do not all pass, which is where its arguments are not loadable, and
`holds_of_loadCheck` says of each reason that it holds. -/
theorem loadRefusesBadArguments : Obligations.LoadRefusesBadArguments := by
  unfold Obligations.LoadRefusesBadArguments
  intro prog a b c s
  refine ⟨?refused, fun r hr => ?reason⟩
  case refused =>
    rw [← loadCheck_eq_none_iff_loadable, ← ne_eq, Option.ne_none_iff_exists']
    constructor
    · rintro ⟨r, hr⟩
      exact ⟨r, (hostLoad_refused_iff prog a b c s r).1 (congrArg Prod.snd hr)⟩
    · rintro ⟨r, hr⟩
      exact ⟨r, hostLoad_refused hr⟩
  case reason =>
    have hholds := holds_of_loadCheck ((hostLoad_refused_iff prog a b c s r).1 hr)
    refine ⟨?_, ?_, ?_, ?_⟩
    all_goals rintro rfl; exact hholds

/-! ### WRITE_REG and the reads (60_exceptions R156, R158) -/

/-- Settles O51: the two branches of `hostWriteReg`, its test being the statement's condition. -/
theorem writeRegOnlyInIdle : Obligations.WriteRegOnlyInIdle := by
  unfold Obligations.WriteRegOnlyInIdle
  intro r v s
  simp only [← Config.fitsReg_iff, withReg_eq_writeReg]
  exact ⟨fun hidle hv => if_pos ⟨hidle, hv⟩, fun h => if_neg h⟩

/-- Settles O52: each read's own equation. -/
theorem hostReadsChangeNothing : Obligations.HostReadsChangeNothing := by
  unfold Obligations.HostReadsChangeNothing
  exact fun s => ⟨rfl, rfl, rfl, rfl, rfl, rfl⟩

/-! ### STEP (60_exceptions R156) -/

theorem stepOutcome_of_active {t : State} (h : t.runState = .active) : stepOutcome t = .next := by
  rw [stepOutcome, (State.terminalFault_none t).2 (t.enabled_iff.2 (.inr h))]

theorem stepOutcome_of_halted {t : State} (h : t.runState = .halted) : stepOutcome t = .halted := by
  rw [stepOutcome, t.terminalFault_eq_halted_iff.2 h]

theorem stepOutcome_of_faulted {t : State} (h : t.runState = .faulted) : stepOutcome t = .fault t.cause := by
  rw [stepOutcome, (t.terminalFault_eq_faulted_iff t.cause).2 ⟨h, rfl⟩]

theorem State.enabled_of_halted {s : State} (h : s.runState = .halted) : s.enabled = false := by
  simp [State.enabled, h]

/-- Settles O53: a step leaves a state other than IDLE, and STEP's report is that state's outcome; a terminal machine
reports its own. -/
theorem hostStepReportsHowItEnded : Obligations.HostStepReportsHowItEnded := by
  unfold Obligations.HostStepReportsHowItEnded
  intro s
  refine ⟨fun hs => ?ready, fun hs => ?halted, fun hs => ?faulted⟩
  case ready =>
    obtain ⟨t, hst, hc⟩ := step_cases (s.enabled_iff.2 hs)
    refine ⟨t, hst, ?_⟩
    rw [hostDo, hostStep_enabled hst]
    cases ht : t.runState with
    | idle => exact absurd ht hc.runState_ne_idle
    | active => exact .inl ⟨rfl, by rw [stepOutcome_of_active ht]⟩
    | halted => exact .inr (.inl ⟨rfl, by rw [stepOutcome_of_halted ht]⟩)
    | faulted => exact .inr (.inr ⟨rfl, by rw [stepOutcome_of_faulted ht]⟩)
  case halted => rw [hostDo, hostStep_terminal (State.enabled_of_halted hs), stepOutcome_of_halted hs]
  case faulted => rw [hostDo, hostStep_terminal (State.enabled_of_faulted hs), stepOutcome_of_faulted hs]

/-! ### Terminal machines (60_exceptions R146) -/

/-- On a terminal machine every operation but LOAD keeps the whole state. -/
theorem hostDo_terminal {s : State} {op : HostOp} (h : s.enabled = false)
    (hop : ∀ prog a b c, op ≠ .load prog a b c) : (hostDo op s).1 = s := by
  cases op with
  | load prog a b c => exact absurd rfl (hop prog a b c)
  | writeReg r v =>
    have hidle : s.runState ≠ .idle := fun hidle => by simp [State.enabled, hidle] at h
    rw [hostDo, hostWriteReg, if_neg fun hok => hidle hok.1]
  | readReg r => rfl
  | readIp => rfl
  | readStatus => rfl
  | readOutput => rfl
  | step => rw [hostDo, hostStep_terminal h]
  | run fuel => rw [hostDo, hostRun, runFuel_terminal h]

theorem hostSession_terminal {s : State} {ops : List HostOp} (h : s.enabled = false)
    (hops : ∀ op ∈ ops, ∀ prog a b c, op ≠ .load prog a b c) : hostSession ops s = s := by
  induction ops with
  | nil => rfl
  | cons op rest ih =>
    obtain ⟨hop, hrest⟩ := List.forall_mem_cons.1 hops
    rw [hostSession, hostDo_terminal h hop, ih hrest]

theorem hostDo_run_terminal {s : State} (h : s.enabled = false) (n : Nat) :
    hostDo (.run n) s = (s, .ran (runOutcome s)) := by
  rw [hostDo, hostRun, runFuel_terminal h]

/-- Settles O54: the session keeps the terminal state by `hostSession_terminal`, and RUN answers its outcome. -/
theorem onlyLoadLeavesATerminalState : Obligations.OnlyLoadLeavesATerminalState := by
  unfold Obligations.OnlyLoadLeavesATerminalState
  intro ops s hs hops
  have h : s.enabled = false := s.not_ready_iff.1 hs
  rw [hostSession_terminal h hops]
  refine ⟨rfl, fun hhalted n => ?_, fun hfaulted n => ?_⟩
  · rw [hostDo_run_terminal h, (runOutcome_eq_halted_iff s).2 hhalted]
  · rw [hostDo_run_terminal h, (runOutcome_eq_fault_iff s s.cause).2 ⟨hfaulted, rfl⟩]

/-! ### STATUS (10_state R33) -/

/-- STATUS as a number: STATE in the two low bits, CAUSE above them. -/
theorem State.status_toNat (s : State) : s.status.toNat = s.cause.code.toNat * 4 + s.runState.code.toNat := by
  unfold State.status
  generalize s.cause.code = c
  generalize s.runState.code = r
  revert c r
  decide

/-- Settles O34: `State.status_toNat` splits STATUS into its two codes, and each code is the rule's. -/
theorem statusRegisterLayout : Obligations.StatusRegisterLayout := by
  unfold Obligations.StatusRegisterLayout
  intro s
  have hstate : s.runState.code.toNat < 4 := s.runState.code.isLt
  have hlow : s.status.toNat % 4 = s.runState.code.toNat := by rw [s.status_toNat]; omega
  have hhigh : s.status.toNat / 4 = s.cause.code.toNat := by rw [s.status_toNat]; omega
  rw [hlow, hhigh]
  refine ⟨?state, ?cause, ?bound, rfl⟩
  case state => cases s.runState <;> rfl
  case cause => cases s.cause <;> rfl
  case bound => cases s.cause <;> decide

end Sys2Proof.Machine

/-! SUPPORT. The statements of 44_output R134 and 30_encoding R71: the two text views. -/

namespace Sys2Proof.Machine

/-! ### The rendering of the output (44_output R134) -/

theorem digitText_eq_toString (d : ProgCell) : digitText d = toString d.toNat := by revert d; decide

theorem digitText_length (d : ProgCell) : (digitText d).length = 1 := by revert d; decide

theorem render_cons_cons (d e : Digit) (rest : List Digit) :
    render (d :: e :: rest) = digitText d ++ "," ++ render (e :: rest) := rfl

/-- One character for each digit and one for each comma between two digits. -/
theorem render_length (out : List Digit) : (render out).length = 2 * out.length - 1 := by
  induction out using render.induct with
  | case1 => rfl
  | case2 d => exact digitText_length d
  | case3 d rest hne ih =>
    obtain ⟨e, tail, rfl⟩ := List.exists_cons_of_ne_nil hne
    have hcomma : ",".length = 1 := rfl
    rw [render_cons_cons, String.length_append, String.length_append, digitText_length, hcomma, ih]
    simp only [List.length_cons]
    omega

/-- Settles O55: the rendering's own equations, and its length by induction over the digits. -/
theorem outputRendersCommaJoined : Obligations.OutputRendersCommaJoined := by
  unfold Obligations.OutputRendersCommaJoined
  simp only [← digitText_eq_toString]
  exact ⟨rfl, fun _ => rfl, render_cons_cons, render_length, by decide⟩

/-! ### The spelling of an instruction (30_encoding R71) -/

theorem digitText_inj {d e : ProgCell} (h : digitText d = digitText e) : d = e := by revert d e; decide

theorem Combo.spelling_inj {k j : Combo} (hk : k.valid = true) (h : Combo.spelling k = Combo.spelling j) : k = j := by
  have hcodes : ∀ c d : ProgCell, (Combo.ofCode c).valid = true →
      Combo.spelling (Combo.ofCode c) = Combo.spelling (Combo.ofCode d) → Combo.ofCode c = Combo.ofCode d := by decide
  rw [← Combo.ofCode_code k] at hk h ⊢
  rw [← Combo.ofCode_code j] at h ⊢
  exact hcodes _ _ hk h

/-- A valid combo operand is spelled as one character. -/
theorem Combo.spelling_of_valid {k : Combo} (h : k.valid = true) : ∃ t, Combo.spelling k = some t ∧ t.length = 1 := by
  cases k with
  | lit n => exact ⟨_, rfl, digitText_length _⟩
  | reg r => cases r <;> exact ⟨_, rfl, rfl⟩
  | reserved => cases h

/-- Every well-formed instruction's operand is spelled as one character. -/
theorem operandSpelling_of_wellFormed {i : Instr} (h : i.wellFormed = true) :
    ∃ t, Instr.operandSpelling i = some t ∧ t.length = 1 := by
  cases i with
  | xorLiteral k => exact ⟨_, rfl, digitText_length k⟩
  | jumpIfNonzero k => exact ⟨_, rfl, digitText_length k⟩
  | xorRegisters k => exact ⟨_, rfl, digitText_length k⟩
  | divA k => exact Combo.spelling_of_valid h
  | modulo k => exact Combo.spelling_of_valid h
  | output k => exact Combo.spelling_of_valid h
  | divB k => exact Combo.spelling_of_valid h
  | divC k => exact Combo.spelling_of_valid h

/-- An ill-formed instruction's operand has no spelling, and so the instruction has none. -/
theorem spelling_of_illFormed {i : Instr} (h : i.wellFormed = false) : Instr.spelling i = none := by
  obtain rfl | rfl | rfl | rfl | rfl := illFormed_cases h <;> rfl

theorem wellFormed_of_spelling {i : Instr} {u : String} (h : Instr.spelling i = some u) : i.wellFormed = true := by
  by_contra hw
  cases h.symm.trans (spelling_of_illFormed (Bool.eq_false_iff.2 hw))

/-- Among the pairs of one opcode, the spelling of a valid operand determines the pair. -/
theorem decodePair_eq_of_operandSpelling {op k j : ProgCell} (hw : (decodePair op k).wellFormed = true)
    (h : Instr.operandSpelling (decodePair op k) = Instr.operandSpelling (decodePair op j)) :
    decodePair op k = decodePair op j := by
  unfold decodePair at hw h ⊢
  cases hop : decodeOpcode op with
  | xorLiteral => rw [hop] at h; exact congrArg _ (digitText_inj (Option.some.inj h))
  | jumpIfNonzero => rw [hop] at h; exact congrArg _ (digitText_inj (Option.some.inj h))
  | xorRegisters => rw [hop] at h; exact congrArg _ (digitText_inj (Option.some.inj h))
  | divA => rw [hop] at hw h; exact congrArg _ (Combo.spelling_inj hw h)
  | modulo => rw [hop] at hw h; exact congrArg _ (Combo.spelling_inj hw h)
  | output => rw [hop] at hw h; exact congrArg _ (Combo.spelling_inj hw h)
  | divB => rw [hop] at hw h; exact congrArg _ (Combo.spelling_inj hw h)
  | divC => rw [hop] at hw h; exact congrArg _ (Combo.spelling_inj hw h)

theorem mnemonic_inj {o p : Opcode} (h : Opcode.mnemonic o = Opcode.mnemonic p) : o = p := by
  have hcells : ∀ c d : ProgCell, Opcode.mnemonic (decodeOpcode c) = Opcode.mnemonic (decodeOpcode d) → c = d := by
    decide
  rw [← decodeOpcode_cell o, ← decodeOpcode_cell p] at h ⊢
  rw [hcells _ _ h]

/-- Texts that end in operands of one length agree in what stands before them too. -/
theorem text_append_inj {a b t u : String} (h : a ++ t = b ++ u) (hlen : t.length = u.length) :
    a = b ∧ t = u := by
  have hlists : a.toList ++ t.toList = b.toList ++ u.toList := by
    rw [← String.toList_append, h, String.toList_append]
  obtain ⟨hab, htu⟩ := List.append_inj' hlists (by rwa [String.length_toList, String.length_toList])
  exact ⟨String.toList_inj.1 hab, String.toList_inj.1 htu⟩

/-- Two instructions with the same spelling are the same: the operand is its last character, the mnemonic the rest. -/
theorem spelling_inj {i j : Instr} {u : String} (hi : Instr.spelling i = some u) (hj : Instr.spelling j = some u) :
    i = j := by
  have hwi := wellFormed_of_spelling hi
  obtain ⟨t, ht, htlen⟩ := operandSpelling_of_wellFormed hwi
  obtain ⟨v, hv, hvlen⟩ := operandSpelling_of_wellFormed (wellFormed_of_spelling hj)
  have hsame : Opcode.mnemonic i.opcode ++ " " ++ t = Opcode.mnemonic j.opcode ++ " " ++ v := by
    simpa [Instr.spelling, ht, hv] using hi.trans hj.symm
  obtain ⟨hhead, htv⟩ := text_append_inj hsame (htlen.trans hvlen.symm)
  have hop : i.opcode.cell = j.opcode.cell := congrArg Opcode.cell (mnemonic_inj ((String.append_left_inj " ").1 hhead))
  have hoperand : Instr.operandSpelling i = Instr.operandSpelling j := by rw [ht, hv, htv]
  rw [← decodePair_encode i] at hwi hoperand ⊢
  rw [← decodePair_encode j] at hoperand ⊢
  simp only [encode, hop] at hwi hoperand ⊢
  exact decodePair_eq_of_operandSpelling hwi hoperand

theorem parseInstr_of_spelling {i : Instr} {u : String} (h : Instr.spelling i = some u) : parseInstr u = some i := by
  have hfound : (parseInstr u).isSome = true := List.find?_isSome.2 ⟨i, mem_allPairs i, decide_eq_true h⟩
  obtain ⟨j, hj⟩ := Option.isSome_iff_exists.1 hfound
  have hju : Instr.spelling j = some u :=
    of_decide_eq_true (List.find?_some (p := fun i => decide (Instr.spelling i = some u)) hj)
  rw [hj, spelling_inj hju h]

/-- Settles O56: a well-formed instruction has a spelling, `parseInstr_of_spelling` reads it back, and an ill-formed one
has none. -/
theorem spellingIsReadBack : Obligations.SpellingIsReadBack := by
  unfold Obligations.SpellingIsReadBack
  refine fun i => ⟨fun hw => ?_, spelling_of_illFormed⟩
  obtain ⟨t, ht, -⟩ := operandSpelling_of_wellFormed hw
  have hspelling : Instr.spelling i = some (Opcode.mnemonic i.opcode ++ " " ++ t) := by
    rw [Instr.spelling, ht, Option.map_some]
  exact ⟨_, hspelling, parseInstr_of_spelling hspelling⟩

end Sys2Proof.Machine
